-- ==== Sys2Proof/Word.lean ====
section
/-! DEFINITION. The plain data of the block: bytes, samples, readings, averages, destinations. -/

namespace Sys2Proof

/-- A byte, a natural number in `0..255` (00_scope.md R6). -/
abbrev Byte := BitVec 8

/-- One temperature or humidity value. The spec leaves the floating-point format open (00_scope.md section 4, D4)
and looks at no bit pattern (20_memory.md R34), so a sample is the value itself: any finite value of any
floating-point format is a rational number or the negative zero. Which of these values an instance has is the field
`sample` of its configuration.
DESIGN CHOICE (assumption log 3), safe. -/
inductive Sample where
  /-- the negative zero -/
  | negZero
  /-- a finite value, the positive zero being `fin 0` -/
  | fin (value : Rat)
  /-- positive infinity -/
  | posInf
  /-- negative infinity -/
  | negInf
  /-- a not-a-number -/
  | nan
  deriving DecidableEq, Repr, Inhabited

/-- A Reading: a pair (temperature, humidity), temperature first (10_state.md R10, 30_encoding.md R48). -/
structure Reading where
  /-- temperature -/
  t : Sample
  /-- humidity -/
  h : Sample
  deriving DecidableEq, Repr, Inhabited

/-- An Average: (mean of stored temperatures, mean of stored humidities) (00_scope.md section 6, R70). -/
structure Average where
  /-- `avg_t` -/
  t : Sample
  /-- `avg_h` -/
  h : Sample
  deriving DecidableEq, Repr, Inhabited

/-- A destination address: exactly 8 bytes, so any other length cannot be written (30_encoding.md R49, U11). -/
abbrev Dest := Vector Byte 8

end Sys2Proof
end

