-- ==== Sys2Proof/Config.lean ====
section
/-! DEFINITION. What an instance of the block fixes before reset (00_scope.md section 4, R133), and the constants
the spec leaves open. -/

namespace Sys2Proof

/-- A binary floating-point format of the IEEE 754 kind: values `m * 2^e` with `m < 2^precision` and `e >= minExp`,
below `2^maxExp` in magnitude. -/
structure FloatFormat where
  /-- bits of the significand, the leading one counted -/
  precision : Nat
  /-- a significand has at least its leading bit -/
  precision_pos : 1 ≤ precision
  /-- exponent of the last place of the subnormal values -/
  minExp : Int
  /-- every finite value is below `2^maxExp` in magnitude -/
  maxExp : Int
  deriving DecidableEq, Repr

/-- The parameter `Sample` of 00_scope.md section 4 (R9, D4): which sample values an instance has. -/
inductive SampleFormat where
  /-- a floating-point format of which nothing is known: values of any format are taken -/
  | unspecified
  /-- the named binary format; `binary32` is the reference instantiation (R73) -/
  | binary (fmt : FloatFormat)
  deriving DecidableEq, Repr

/-- Which function averages the window: the parameter `mean` of 00_scope.md section 4 as plain data. -/
inductive MeanFn where
  /-- the instance's own function, of which nothing is known but that it depends on its arguments alone (R72) -/
  | unspecified
  /-- the reference instantiation of R73: running sum in slot order, then one division, in the instance's format -/
  | reference
  deriving DecidableEq, Repr

/-- The configuration of one instance, fixed while the block exists (00_scope.md R5, 70_reset_and_hazards.md R133). -/
structure Config where
  /-- `N`, the capacity of the window -/
  n : Nat
  /-- `N >= 1` (R5): an instance with `N = 0` cannot be written (U12) -/
  n_pos : 1 ≤ n
  /-- `HAS_ENCODER` -/
  hasEncoder : Bool
  /-- `TX_OPTIONS` -/
  txOptions : Byte
  /-- `Sample` -/
  sample : SampleFormat
  /-- `mean` -/
  mean : MeanFn
  /-- the reference mean is arithmetic of a known format (R73) -/
  mean_fits : mean = .reference → sample ≠ .unspecified
  deriving DecidableEq, Repr

namespace Config

/-- FREE VALUE. The options byte of an instance: the spec gives no value (R21, D9, N1).
DESIGN CHOICE (assumption log 5), safe: nothing can be proved about it. -/
opaque openTxOptions : Byte

/-- FREE VALUE. The averaging function of an instance: a total function of the stored values in slot order, of which
the spec fixes no format, rounding or order (R72, D5, N2). DESIGN CHOICE (assumption log 4), safe for one instance.
DESIGN CHOICE (assumption log 17), unsafe: all instances whose `mean` is open average by this one function, where the
spec leaves open whether two instances do (00_scope.md section 4, R72; R125). -/
opaque openMean : List Sample → Sample

/-- The instance that `State.reset` shows: one of the observed capacities, with the encoder, every OPEN parameter
left open. DESIGN CHOICE (assumption log 2), unsafe where a statement rests on these two values; every statement
ranges over all configurations. -/
def shown : Config :=
  { n := 2, n_pos := by decide, hasEncoder := true, txOptions := openTxOptions, sample := .unspecified,
    mean := .unspecified, mean_fits := by decide }

end Config

end Sys2Proof
end

