-- ==== Sys2Proof/Syntax.lean ====
section
/-! DEFINITION. The operations of the block and the command record that presents one (30_encoding.md section 1). -/

namespace Sys2Proof

/-- One constructor per row of spec/opcode_table.json. -/
inductive Instr where
  /-- `NOP`, 42_system.md R100 -/
  | nop
  /-- `PUSH t, h`, 40_sample_averager.md R65 -/
  | push (t h : Sample)
  /-- `ENCODE payload_len, payload, dest`, 41_frame_encoder.md R80 -/
  | encode (payloadLen : BitVec 16) (payload : List Byte) (dest : Dest)
  /-- the reserved code, 42_system.md R101 -/
  | reserved
  deriving DecidableEq, Repr

/-- Command format `CMD` (R46 to R49): a 2-bit code and the operands. Every operand line is present and a code looks
only at the lines it calls for. DESIGN CHOICE for the unused lines (assumption log 12), safe. -/
structure Command where
  /-- `cmd[1:0]` -/
  cmd : BitVec 2
  /-- temperature operand of `PUSH` -/
  t : Sample
  /-- humidity operand of `PUSH` -/
  h : Sample
  /-- `payload_len` of `ENCODE` -/
  payloadLen : BitVec 16
  /-- payload bytes of `ENCODE`, index 0 first -/
  payload : List Byte
  /-- destination of `ENCODE`, `dest[0]` first -/
  dest : Dest
  deriving DecidableEq, Repr

end Sys2Proof
end

