-- ==== Sys2Proof/WellFormed.lean ====
section
/-! DEFINITION. Which operations a host may present as far as their form goes. -/

namespace Sys2Proof

/-- `payload` is "a sequence of exactly `payload_len` bytes" (30_encoding.md R49); with a 16-bit length no payload is
longer than 65535 bytes (D12). The other operand forms are held by their types: a destination has 8 bytes (U11), and
any pair of samples is a form of `PUSH` (whether it is finite is the precondition of R66, not a question of form). -/
def wellFormed : Instr → Bool
  | .nop => true
  | .push _ _ => true
  | .encode payloadLen payload _ => payload.length == payloadLen.toNat
  | .reserved => true

end Sys2Proof
end

