-- ==== Sys2Proof/Decode.lean ====
section
/-! DEFINITION. Reading an operation from a command record, and the encoder back (30_encoding.md R46 to R49, R57).
All four values of `cmd` are assigned, the reserved one included, so decoding is total and rejects nothing. -/

namespace Sys2Proof

/-- `cmd[1:0]` of each operation (30_encoding.md R47). -/
def cmdCode : Instr → BitVec 2
  | .nop => 0b00#2
  | .push _ _ => 0b01#2
  | .encode _ _ _ => 0b10#2
  | .reserved => 0b11#2

/-- The operation a command presents (R47). The codes `00` and `11` look at no operand (R100, R101). -/
def decode (c : Command) : Instr :=
  if c.cmd = 0b00#2 then .nop
  else if c.cmd = 0b01#2 then .push c.t c.h
  else if c.cmd = 0b10#2 then .encode c.payloadLen c.payload c.dest
  else .reserved

/-- A command of the given code whose operand lines are all zero. -/
def bareCommand (cmd : BitVec 2) : Command :=
  { cmd := cmd, t := .fin 0, h := .fin 0, payloadLen := 0#16, payload := [], dest := Vector.replicate 8 0#8 }

/-- The command that presents an operation; operand lines its code does not call for are zero. -/
def encode : Instr → Command
  | .nop => bareCommand 0b00#2
  | .push t h => { bareCommand 0b01#2 with t := t, h := h }
  | .encode payloadLen payload dest =>
    { bareCommand 0b10#2 with payloadLen := payloadLen, payload := payload, dest := dest }
  | .reserved => bareCommand 0b11#2

/-- The command whose code is bits 1:0 of a row's word (spec/opcode_table.json: mask 0x3), operand lines zero; a word
of fewer than two bits presents no code. -/
def commandOfTableWord (nbits w : Nat) : Option Command :=
  if 2 ≤ nbits then some (bareCommand (BitVec.ofNat 2 w)) else none

/-- The operation the decoder reads from a word of the opcode table. -/
def decodeTableWord (nbits w : Nat) : Option Instr :=
  (commandOfTableWord nbits w).map decode

end Sys2Proof
end

