-- ==== Sys2Proof/Machine/State.lean ====
section
/-! DEFINITION. The state of the block, what stops it, and reset (10_state.md). -/

namespace Sys2Proof.Machine

/-- Why the machine stops with a fault. -/
inductive Fault where
  /-- A slot nothing has written since reset was read (10_state.md R26, U4). Raised by `slotRead`. Safe: the spec
  gives the slot no value, and no run from reset reaches it. -/
  | unwrittenSlot (index : Nat)
  /-- A slot index not below `N` was used (10_state.md R14 (c), 40_sample_averager.md R78). Raised by `slotRead` and
  `slotWrite`. Safe: no run from reset reaches it. -/
  | slotOutOfRange (index : Nat)
  deriving DecidableEq, Repr

/-- Why an operation has no meaning. -/
inductive Refusal where
  /-- An instruction that has no meaning yet; raised by no arm of `exec`. Safe. -/
  | notModelled (mnemonic : String)
  /-- `PUSH` with a not-a-number or an infinity (40_sample_averager.md R66, U3: "a model refuses a `PUSH` with a
  non-finite operand"). Raised by `execPush`. Safe. -/
  | nonFiniteReading
  /-- `PUSH` of a number that is no value of the instance's `Sample` (00_scope.md section 4, 30_encoding.md R48: each
  operand "is a whole `Sample` value"), which no host of that instance can present. Raised by `execPush`. Safe. -/
  | notASample
  /-- `ENCODE` whose `payload_len` is not the number of payload bytes (30_encoding.md R49, U9). Raised by
  `execEncode`. Safe. -/
  | payloadLengthMismatch
  deriving DecidableEq, Repr

/-- The errors the block reports as values (60_exceptions.md R111). -/
inductive ErrorCode where
  /-- `PAYLOAD_TOO_LARGE` -/
  | payloadTooLarge
  /-- `ILLEGAL_CMD` -/
  | illegalCmd
  deriving DecidableEq, Repr

/-- What an operation returns to the host (30_encoding.md R50, 10_state.md R16), in the `Option` and `Result` shapes
of the source; a value that is not valid is absent (D15). -/
inductive Result where
  /-- `OK`, of `NOP` -/
  | ok
  /-- `None` or `Some((avg_t, avg_h))`, of `PUSH`; the status is `OK` -/
  | average (avg : Option Average)
  /-- `Ok(frame)`, of `ENCODE`; bytes with index 0 first -/
  | frame (bytes : List Byte)
  /-- `Err(code)` -/
  | err (code : ErrorCode)
  deriving DecidableEq, Repr

/-- What the host presents to the block (60_exceptions.md R121): a command or the reset event. -/
inductive HostEvent where
  /-- one operation with its operands -/
  | command (c : Command)
  /-- the reset event, which is not an operation (70_reset_and_hazards.md R131) -/
  | reset
  deriving DecidableEq, Repr

/-- The slot array as (index, reading) pairs, indices strictly rising; an index that is not listed has not been
written since reset and holds no value (10_state.md R26, 20_memory.md R30). -/
abbrev Memory := List (Nat × Reading)

/-- The whole state (10_state.md section 1), with the configuration beside it and the two fields that stand for the
transaction-level interface. -/
structure State where
  /-- the instance's configuration; no step changes it (R133; assumption log 2) -/
  cfg : Config
  /-- `slot[0..N-1]` (R10) -/
  slots : Memory
  /-- `next_slot` (R11) -/
  nextSlot : Nat
  /-- `filled_count` (R12) -/
  filledCount : Nat
  /-- the model's own field: what the host will present, oldest first (assumption log 1) -/
  host : List HostEvent
  /-- the model's own field: what the operation of the last step returned, `none` after a step that performed no
  operation; the block does not latch it and nothing reads it (R16; assumption log 11) -/
  out : Option Result
  deriving DecidableEq, Repr

/-- The block of the given configuration right after reset (10_state.md R24 to R27), nothing presented yet. -/
def State.resetWith (cfg : Config) : State :=
  { cfg := cfg, slots := [], nextSlot := 0, filledCount := 0, host := [], out := none }

/-- The machine right after reset. -/
def State.reset : State := State.resetWith Config.shown

end Sys2Proof.Machine
end

