-- ==== Sys2Proof/Machine/Ops.lean ====
section
/-! DEFINITION. The named operations over the slot array, the two counters, the result port and the host's events.
The block has no trap entry and no trap return (60_exceptions.md R118, R119): an error is a returned value, so the one
shared operation beside a normal result is `returning` with an `err`. -/

namespace Sys2Proof.Machine

/-- The canonical form of the slot array: indices strictly rising. -/
def Memory.wf : Memory → Bool
  | [] => true
  | [_] => true
  | a :: b :: rest => decide (a.1 < b.1) && Memory.wf (b :: rest)

/-- The reading listed at an index, if one is. -/
def Memory.read : Memory → Nat → Option Reading
  | [], _ => none
  | (j, r) :: rest, i => if i = j then some r else Memory.read rest i

/-- List a reading at an index, in place of what was listed there, keeping the indices rising. -/
def Memory.write : Memory → Nat → Reading → Memory
  | [], i, r => [(i, r)]
  | (j, x) :: rest, i, r =>
    if i < j then (i, r) :: (j, x) :: rest
    else if i = j then (i, r) :: rest
    else (j, x) :: Memory.write rest i r

/-- State with another slot array. -/
def State.withSlots (s : State) (m : Memory) : State := { s with slots := m }

/-- State with another `next_slot`. -/
def State.withNextSlot (s : State) (i : Nat) : State := { s with nextSlot := i }

/-- State with another `filled_count`. -/
def State.withFilledCount (s : State) (k : Nat) : State := { s with filledCount := k }

/-- State with other pending host events. -/
def State.withHost (s : State) (es : List HostEvent) : State := { s with host := es }

/-- State with another result at the port. -/
def State.withOut (s : State) (o : Option Result) : State := { s with out := o }

/-- `SlotRead(i)` (00_scope.md R7): the pair in slot `i`; a slot never written since reset has no value (R26). -/
def slotRead (s : State) (i : Nat) : Except Fault Reading :=
  if i < s.cfg.n then
    match Memory.read s.slots i with
    | some r => .ok r
    | none => .error (.unwrittenSlot i)
  else .error (.slotOutOfRange i)

/-- `SlotWrite(i, (t, h))` (00_scope.md R7): both components of slot `i` together. -/
def slotWrite (s : State) (i : Nat) (r : Reading) : Except Fault State :=
  if i < s.cfg.n then .ok (s.withSlots (Memory.write s.slots i r)) else .error (.slotOutOfRange i)

/-- The slots of the listed indices, in that order; the first fault wins. -/
def slotReadAll (s : State) : List Nat → Except Fault (List Reading)
  | [] => .ok []
  | i :: rest =>
    match slotRead s i with
    | .error f => .error f
    | .ok r =>
      match slotReadAll s rest with
      | .error f => .error f
      | .ok rs => .ok (r :: rs)

/-- Every slot, in slot-index order `0..N-1` (40_sample_averager.md R65, R78). -/
def windowReadings (s : State) : Except Fault (List Reading) := slotReadAll s (List.range s.cfg.n)

/-- The circular index law: one up, modulo `N` (10_state.md R11, 40_sample_averager.md R67). -/
def nextIndex (n i : Nat) : Nat := (i + 1) % n

/-- The saturating fill counter: one up, at most `N` (10_state.md R12, 40_sample_averager.md R68). -/
def nextCount (n k : Nat) : Nat := min (k + 1) n

/-- `next_slot` and `filled_count` after one push (40_sample_averager.md R65). -/
def advance (s : State) : State :=
  (s.withNextSlot (nextIndex s.cfg.n s.nextSlot)).withFilledCount (nextCount s.cfg.n s.filledCount)

/-- `return r`: hand a result to the host (00_scope.md R7, 60_exceptions.md R112); no other state changes. -/
def returning (s : State) (r : Result) : State := s.withOut (some r)

/-- The reset event (70_reset_and_hazards.md R130): the window is empty, nothing is returned (R131), the configuration
stands (10_state.md R27), and so do the events the host has yet to present. -/
def resetEvent (s : State) : State :=
  (((s.withSlots []).withNextSlot 0).withFilledCount 0).withOut none

/-- Least `w` with `m <= 2^w`, that is `ceil(log2(m))` for `m >= 1` (00_scope.md section 4). -/
def ceilLog2 (m : Nat) : Nat := if m ≤ 1 then 0 else Nat.log2 (m - 1) + 1

/-- `IDX_W` (00_scope.md section 4, D3). -/
def idxWidth (n : Nat) : Nat := max 1 (ceilLog2 n)

/-- `CNT_W` (00_scope.md section 4, D3). -/
def cntWidth (n : Nat) : Nat := ceilLog2 (n + 1)

/-- A step with nothing presented: the block holds its state (60_exceptions.md R126, 70_reset_and_hazards.md R141) and
returns nothing (assumption log 14). -/
def idle (s : State) : State := s.withOut none

/-- Put a command before everything the host has pending, so that the next step performs it. -/
def presentFirst (s : State) (c : Command) : State := s.withHost (.command c :: s.host)

/-- Put the command of an opcode-table word first; a word too short to hold a command code presents nothing. -/
def presentWord (s : State) (nbits w : Nat) : State :=
  match commandOfTableWord nbits w with
  | some c => presentFirst s c
  | none => s

end Sys2Proof.Machine
end

