-- ==== Sys2Proof/Machine/Flags.lean ====
section
/-! DEFINITION. The derived flag `ready` and the indications of a result (10_state.md section 3, 30_encoding.md R50). -/

namespace Sys2Proof.Machine

/-- `ready`, the predicate `filled_count == N` (10_state.md R15); not stored, readable by the host (D1). -/
def ready (s : State) : Bool := s.filledCount == s.cfg.n

/-- Code of an error (60_exceptions.md R111). -/
def errorStatus : ErrorCode → BitVec 2
  | .payloadTooLarge => 1#2
  | .illegalCmd => 2#2

/-- `status[1:0]` of a result (30_encoding.md R50). -/
def status : Result → BitVec 2
  | .ok => 0#2
  | .average _ => 0#2
  | .frame _ => 0#2
  | .err e => errorStatus e

/-- `avg_valid` of a result of `PUSH` (30_encoding.md R50); the other operations have no such output. -/
def avgValid : Result → Option Bool
  | .average a => some a.isSome
  | .ok => none
  | .frame _ => none
  | .err _ => none

/-- `frame_len`, 8 bits, of a result of `ENCODE` whose status is `OK` (30_encoding.md R50). -/
def frameLen : Result → Option (BitVec 8)
  | .frame bytes => some (BitVec.ofNat 8 bytes.length)
  | .ok => none
  | .average _ => none
  | .err _ => none

end Sys2Proof.Machine
end

