-- ==== Sys2Proof/Machine/Float.lean ====
section
/-! DEFINITION. The floating-point arithmetic of the reference instantiation (40_sample_averager.md R73, R76, R77):
compute exactly, then round once, to nearest with ties to even, with gradual underflow. -/

namespace Sys2Proof.Machine

/-- IEEE 754 binary32, the spec's reference format (40_sample_averager.md R73, D4). -/
def binary32 : FloatFormat := { precision := 24, precision_pos := by decide, minExp := -149, maxExp := 128 }

/-- IEEE 754 binary64, in which 90_conflicts.md C1 gives two further examples. -/
def binary64 : FloatFormat := { precision := 53, precision_pos := by decide, minExp := -1074, maxExp := 1024 }

/-- `2^e`. -/
def pow2 : Int → Rat
  | .ofNat k => mkRat ((2 ^ k : Nat) : Int) 1
  | .negSucc k => mkRat 1 (2 ^ (k + 1))

/-- Greatest `k` with `2^k <= q`, for `q > 0`. -/
def floorLog2 (q : Rat) : Int :=
  let k : Int := (Nat.log2 q.num.natAbs : Int) - (Nat.log2 q.den : Int)
  if q < pow2 k then k - 1 else k

/-- The integer nearest to `q`, the even one when two are equally near. -/
def roundHalfEven (q : Rat) : Int :=
  let low := q.floor
  let rest := q - (low : Rat)
  if rest < mkRat 1 2 then low
  else if mkRat 1 2 < rest then low + 1
  else if low % 2 = 0 then low
  else low + 1

/-- Exponent of the last place of the values of the format near `q > 0`. -/
def lastPlace (fmt : FloatFormat) (q : Rat) : Int :=
  max fmt.minExp (floorLog2 q - ((fmt.precision : Int) - 1))

/-- Magnitude `q > 0` rounded to the format's spacing, before the test for overflow. -/
def roundMagnitude (fmt : FloatFormat) (q : Rat) : Rat :=
  (roundHalfEven (q / pow2 (lastPlace fmt q)) : Rat) * pow2 (lastPlace fmt q)

/-- A zero of the given sign. -/
def signedZero (neg : Bool) : Sample := if neg then .negZero else .fin 0

/-- An infinity of the given sign. -/
def signedInf (neg : Bool) : Sample := if neg then .negInf else .posInf

/-- The sample of the format nearest to the exact nonzero value `q`; a magnitude of `2^maxExp` or more overflows to
an infinity (R77), one that rounds to zero keeps its sign. -/
def roundTo (fmt : FloatFormat) (q : Rat) : Sample :=
  let neg := decide (q < 0)
  let m := roundMagnitude fmt |q|
  if pow2 fmt.maxExp ≤ m then signedInf neg
  else if m = 0 then signedZero neg
  else if neg then .fin (-m) else .fin m

/-- Addition (`fadd32` of R73 in `binary32`): an exact sum of zero is `+0.0` unless both operands are `-0.0`. -/
def fadd (fmt : FloatFormat) : Sample → Sample → Sample
  | .nan, _ => .nan
  | _, .nan => .nan
  | .posInf, .negInf => .nan
  | .negInf, .posInf => .nan
  | .posInf, _ => .posInf
  | _, .posInf => .posInf
  | .negInf, _ => .negInf
  | _, .negInf => .negInf
  | .negZero, .negZero => .negZero
  | .negZero, .fin b => if b = 0 then .fin 0 else roundTo fmt b
  | .fin a, .negZero => if a = 0 then .fin 0 else roundTo fmt a
  | .fin a, .fin b => if a + b = 0 then .fin 0 else roundTo fmt (a + b)

/-- The sign bit of a sample. -/
def isNegative : Sample → Bool
  | .negZero => true
  | .fin a => decide (a < 0)
  | .posInf => false
  | .negInf => true
  | .nan => false

/-- Division (`fdiv32` of R73 in `binary32`). -/
def fdiv (fmt : FloatFormat) (a b : Sample) : Sample :=
  let neg := Bool.xor (isNegative a) (isNegative b)
  match a, b with
  | .nan, _ => .nan
  | _, .nan => .nan
  | .posInf, .posInf => .nan
  | .posInf, .negInf => .nan
  | .negInf, .posInf => .nan
  | .negInf, .negInf => .nan
  | .posInf, _ => signedInf neg
  | .negInf, _ => signedInf neg
  | _, .posInf => signedZero neg
  | _, .negInf => signedZero neg
  | .negZero, .negZero => .nan
  | .negZero, .fin y => if y = 0 then .nan else signedZero neg
  | .fin x, .negZero => if x = 0 then .nan else signedInf neg
  | .fin x, .fin y =>
    if y = 0 then (if x = 0 then .nan else signedInf neg)
    else if x = 0 then signedZero neg
    else roundTo fmt (x / y)

/-- `float32(N)` of R73: the natural number as a sample of the format. -/
def ofNatural (fmt : FloatFormat) (n : Nat) : Sample := if n = 0 then .fin 0 else roundTo fmt (n : Rat)

/-- The sample an IEEE 754 binary32 bit pattern stands for (the spec's vectors write samples so, 95_test_vectors.md).
No operation of the block calls this (20_memory.md R34). -/
def ofBinary32 (w : BitVec 32) : Sample :=
  let neg := w.toNat / 2 ^ 31 = 1
  let e := w.toNat / 2 ^ 23 % 256
  let f := w.toNat % 2 ^ 23
  if e = 255 then (if f = 0 then signedInf neg else .nan)
  else
    let m : Nat := if e = 0 then f else 2 ^ 23 + f
    let v : Rat := ((m : Int) : Rat) * pow2 ((max e 1 : Nat) - 150)
    if m = 0 then signedZero neg else if neg then .fin (-v) else .fin v

end Sys2Proof.Machine
end

