-- ==== Sys2Proof/Machine/Operands.lean ====
section
/-! DEFINITION. The operand forms: the reading of `PUSH`, the payload of `ENCODE`. -/

namespace Sys2Proof.Machine

/-- `finite(v)`: neither a not-a-number nor an infinity (00_scope.md R6). -/
def isFinite : Sample → Bool
  | .negZero => true
  | .fin _ => true
  | .posInf => false
  | .negInf => false
  | .nan => false

/-- The precondition of `PUSH`: both fields finite (40_sample_averager.md R66, 90_conflicts.md C6). -/
def readingFinite (r : Reading) : Bool := isFinite r.t && isFinite r.h

/-- Whether a value is one of the instance's `Sample` (00_scope.md section 4): of a binary format, a zero, an infinity,
a not-a-number, or a finite value that rounding to the format leaves as it is. -/
def isSampleOf : SampleFormat → Sample → Bool
  | .unspecified, _ => true
  | .binary fmt, .fin q => q == 0 || roundTo fmt q == .fin q
  | .binary _, .negZero => true
  | .binary _, .posInf => true
  | .binary _, .negInf => true
  | .binary _, .nan => true

/-- Both fields are of the instance's `Sample` (30_encoding.md R48). -/
def readingOfFormat (f : SampleFormat) (r : Reading) : Bool := isSampleOf f r.t && isSampleOf f r.h

/-- A valid Reading of an instance: of its `Sample` and finite in both fields (40_sample_averager.md R66). -/
def readingValid (f : SampleFormat) (r : Reading) : Bool := readingFinite r && readingOfFormat f r

/-- The reading that the operands `t, h` of `PUSH` are (30_encoding.md R48): stored as given. -/
def pushReading (t h : Sample) : Reading := { t := t, h := h }

/-- The host's duty that `payload_len = len(payload)` (30_encoding.md R49). -/
def payloadAgrees (payloadLen : BitVec 16) (payload : List Byte) : Bool := payload.length == payloadLen.toNat

end Sys2Proof.Machine
end

