-- ==== Sys2Proof/Machine/Mean.lean ====
section
/-! DEFINITION. The averaging of the window (40_sample_averager.md section 3). -/

namespace Sys2Proof.Machine

/-- The running sum of R73: from `+0.0`, in the order given. -/
def runningSum (fmt : FloatFormat) (vs : List Sample) : Sample := vs.foldl (fadd fmt) (.fin 0)

/-- The reference `mean` of R73: the running sum divided once by the number of values. -/
def referenceMean (fmt : FloatFormat) (vs : List Sample) : Sample :=
  fdiv fmt (runningSum fmt vs) (ofNatural fmt vs.length)

/-- The instance's own mean: a free function into the instance's `Sample` (R72, `mean : Sample^N -> Sample`), so a value
outside that type is not among those it can have (assumption log 4). -/
def unspecifiedMean (f : SampleFormat) (vs : List Sample) : Sample :=
  if isSampleOf f (Config.openMean vs) then Config.openMean vs else .nan

/-- `mean` of a configuration (R72). The reference needs a known format, which `Config.mean_fits` gives. -/
def meanOf (cfg : Config) (vs : List Sample) : Sample :=
  match cfg.mean, cfg.sample with
  | .reference, .binary fmt => referenceMean fmt vs
  | .reference, .unspecified => unspecifiedMean .unspecified vs
  | .unspecified, f => unspecifiedMean f vs

/-- The Average of a window: two independent means, one per component (R70). -/
def averageOf (cfg : Config) (rs : List Reading) : Average :=
  { t := meanOf cfg (rs.map Reading.t), h := meanOf cfg (rs.map Reading.h) }

end Sys2Proof.Machine
end

