-- ==== Sys2Proof/Machine/Averager.lean ====
section
/-! DEFINITION. The averager: `PUSH` (40_sample_averager.md). -/

namespace Sys2Proof.Machine

/-- What a push returns in the state after its writes: the mean of all `N` slots once `filled_count' == N`, else
`None` (R65, 10_state.md R15). -/
def pushResult (s : State) : Except Fault Result :=
  if ready s then
    match windowReadings s with
    | .ok rs => .ok (.average (some (averageOf s.cfg rs)))
    | .error f => .error f
  else .ok (.average none)

/-- `PUSH t, h` (R65): write the slot at `next_slot`, advance index and counter, return the rolling mean when the
window is full after the push. A non-finite operand is refused (R66, D6; assumption log 9), and so is a number
that is no value of the instance's `Sample` (30_encoding.md R48; assumption log 16). -/
def execPush (t h : Sample) (s : State) : Host.Outcome State Fault Refusal :=
  if readingFinite (pushReading t h) then
    if readingOfFormat s.cfg.sample (pushReading t h) then
      match slotWrite s s.nextSlot (pushReading t h) with
      | .error f => .fault f
      | .ok written =>
        match pushResult (advance written) with
        | .error f => .fault f
        | .ok r => .next (returning (advance written) r)
    else .refused .notASample
  else .refused .nonFiniteReading

end Sys2Proof.Machine
end

