-- ==== Sys2Proof/Machine/Frame.lean ====
section
/-! DEFINITION. The frame: its constants, its length arithmetic, its checksum, its layout (30_encoding.md section 2,
41_frame_encoder.md section 2). Lengths and sums are natural numbers; nothing wraps but the sum, modulo 256 (R96). -/

namespace Sys2Proof.Machine

/-- `START_DELIM` (10_state.md R21). -/
def startDelim : Byte := 0x7E#8

/-- `FRAME_TYPE` (10_state.md R21, 90_conflicts.md C5). -/
def frameType : Byte := 0x00#8

/-- `FRAME_ID` (10_state.md R21, 90_conflicts.md C5). -/
def frameId : Byte := 0x01#8

/-- `FRAME_OVERHEAD`, the bytes of a frame that are not payload (41_frame_encoder.md R83). -/
def frameOverhead : Nat := 15

/-- `LEN_EXCLUDED`, the bytes the length field does not count (41_frame_encoder.md R84). -/
def lenExcluded : Nat := 4

/-- `FRAME_MAX`, the largest legal frame in bytes (41_frame_encoder.md R82, 90_conflicts.md C7). -/
def frameMax : Nat := 255

/-- `frame_total_len` of a payload of `p` bytes (41_frame_encoder.md R83). -/
def frameTotalLen (p : Nat) : Nat := p + frameOverhead

/-- `frame_data_len` of a payload of `p` bytes, the value of the length field (41_frame_encoder.md R84). -/
def frameDataLen (p : Nat) : Nat := frameTotalLen p - lenExcluded

/-- The sum of bytes as a natural number (00_scope.md R6). -/
def byteSum (bs : List Byte) : Nat := (bs.map BitVec.toNat).sum

/-- `255 - (sum mod 256)` (41_frame_encoder.md R86). -/
def checksum (bs : List Byte) : Byte := BitVec.ofNat 8 (255 - byteSum bs % 256)

/-- Start delimiter and the big-endian length field (30_encoding.md R52, 20_memory.md R32). -/
def frameHeader (p : Nat) : List Byte :=
  [startDelim, BitVec.ofNat 8 (frameDataLen p / 256), BitVec.ofNat 8 (frameDataLen p % 256)]

/-- The covered bytes, `frame_type` through the end of the payload (30_encoding.md R51, R53). -/
def frameContent (opts : Byte) (payload : List Byte) (dest : Dest) : List Byte :=
  [frameType, frameId] ++ dest.toList ++ [opts] ++ payload

/-- The frame of a payload and a destination (41_frame_encoder.md R80, R85, R88; layout 30_encoding.md R51, whose
payload begins at index 14; assumption log 8 for the index 13 of 20_memory.md R33). -/
def frameOf (opts : Byte) (payload : List Byte) (dest : Dest) : List Byte :=
  frameHeader payload.length ++ frameContent opts payload dest ++ [checksum (frameContent opts payload dest)]

end Sys2Proof.Machine
end

