-- ==== Sys2Proof/Machine/FrameEncoder.lean ====
section
/-! DEFINITION. The encoder: `ENCODE` (41_frame_encoder.md). -/

namespace Sys2Proof.Machine

/-- `Ok(frame)` or `Err(PAYLOAD_TOO_LARGE)`; the bound is tested first, on the natural number (R82, R89). -/
def encodeResult (opts : Byte) (payload : List Byte) (dest : Dest) : Result :=
  if frameTotalLen payload.length > frameMax then .err .payloadTooLarge
  else .frame (frameOf opts payload dest)

/-- `ENCODE payload, dest` (R80). The command code is checked before any operand: an instance without the encoder
answers `ILLEGAL_CMD` (42_system.md R101, 60_exceptions.md R117; assumption log 10). A `payload_len` that is not the
number of payload bytes is refused (30_encoding.md R49, U9). -/
def execEncode (payloadLen : BitVec 16) (payload : List Byte) (dest : Dest) (s : State) :
    Host.Outcome State Fault Refusal :=
  if s.cfg.hasEncoder then
    if payloadAgrees payloadLen payload then .next (returning s (encodeResult s.cfg.txOptions payload dest))
    else .refused .payloadLengthMismatch
  else .next (returning s (.err .illegalCmd))

end Sys2Proof.Machine
end

