-- ==== Sys2Proof/Machine/System.lean ====
section
/-! DEFINITION. `NOP` and the reserved command (42_system.md). -/

namespace Sys2Proof.Machine

/-- `NOP` (R100): status `OK`, no state written. -/
def execNop (s : State) : Host.Outcome State Fault Refusal := .next (returning s .ok)

/-- The reserved command (R101): status `ILLEGAL_CMD`, no state written, no operand looked at (assumption log 10). -/
def execReserved (s : State) : Host.Outcome State Fault Refusal := .next (returning s (.err .illegalCmd))

end Sys2Proof.Machine
end

