-- ==== Sys2Proof/Machine/Dispatch.lean ====
section
/-! DEFINITION. The meaning of each operation, one arm per constructor. -/

namespace Sys2Proof.Machine

def exec (i : Instr) (s : State) : Host.Outcome State Fault Refusal :=
  match i with
  | .nop => Sys2Proof.Machine.execNop s
  | .push t h => Sys2Proof.Machine.execPush t h s
  | .encode payloadLen payload dest => Sys2Proof.Machine.execEncode payloadLen payload dest s
  | .reserved => Sys2Proof.Machine.execReserved s

end Sys2Proof.Machine
end

