-- ==== Sys2Proof/Machine/Step.lean ====
section
/-! DEFINITION. One step: serve the oldest event the host presents. -/

namespace Sys2Proof.Machine

/-- One atomic transition (20_memory.md R37, R40). A command is performed (R46), the reset event resets the window
(70_reset_and_hazards.md R131), and with nothing presented the block is idle. -/
def step (s : State) : Host.Outcome State Fault Refusal :=
  match s.host with
  | [] => .next (idle s)
  | .reset :: rest => .next (resetEvent (s.withHost rest))
  | .command c :: rest => exec (decode c) (s.withHost rest)

/-- The state with the command of an opcode-table word presented next (assumption log 1). -/
def State.withFetchWord (s : State) (nbits w : Nat) : State := presentWord s nbits w

end Sys2Proof.Machine
end

