-- ==== Sys2Proof/Machine/Serial.lean ====
section
/-! DEFINITION. The byte-serial realisation of the encoder (41_frame_encoder.md R97, informative): what a claim of
refinement compares with the frame of R80. No operation of the machine calls it. -/

namespace Sys2Proof.Machine

/-- Byte `n` of the emission with the register `acc`, and the register after it. -/
def serialByte (opts : Byte) (payload : List Byte) (dest : Dest) (n : Nat) (acc : Byte) : Byte × Byte :=
  let p := payload.length
  if n = 0 then (0x7E#8, acc)
  else if n = 1 then (0x00#8, acc)
  else if n = 2 then (BitVec.ofNat 8 (p + 11), acc)
  else if n = 3 then (frameType, acc + frameType)
  else if n = 4 then (frameId, acc + frameId)
  else if n ≤ 12 then (dest.toList.getD (n - 5) 0, acc + dest.toList.getD (n - 5) 0)
  else if n = 13 then (opts, acc + opts)
  else if n ≤ 13 + p then (payload.getD (n - 14) 0, acc + payload.getD (n - 14) 0)
  else (255#8 - acc, acc)

/-- `count` bytes from index `n` on. -/
def serialFrom (opts : Byte) (payload : List Byte) (dest : Dest) : Nat → Nat → Byte → List Byte
  | 0, _, _ => []
  | count + 1, n, acc =>
    (serialByte opts payload dest n acc).1 ::
      serialFrom opts payload dest count (n + 1) (serialByte opts payload dest n acc).2

/-- The whole emission: nothing above the bound, else bytes `0..P+14` with `acc = 0` at the start. -/
def serialEmit (opts : Byte) (payload : List Byte) (dest : Dest) : Option (List Byte) :=
  if payload.length > 240 then none else some (serialFrom opts payload dest (payload.length + 15) 0 0#8)

end Sys2Proof.Machine
end

