-- ==== Sys2Proof/Safety.lean ====
section
/-! DEFINITION. The terms in which claims about the block are stated: the window's invariant, what a window holds of
the readings pushed so far, the host's duties. -/

namespace Sys2Proof.Machine

/-- The invariant of the window (10_state.md R13, R14 (c), (d), (e)): the written slots are exactly those below
`filled_count`, listed in canonical form; `filled_count <= N`; `next_slot < N`; while the window fills, `next_slot`
is `filled_count`; every stored reading is a valid one of the instance (40_sample_averager.md R66). -/
abbrev WindowOk (s : State) : Prop :=
  s.slots.map Prod.fst = List.range s.filledCount ∧
  s.filledCount ≤ s.cfg.n ∧
  s.nextSlot < s.cfg.n ∧
  (s.filledCount < s.cfg.n → s.nextSlot = s.filledCount) ∧
  ∀ c ∈ s.slots, readingValid s.cfg.sample c.2 = true

/-- The window after the pushes `hist` since reset, oldest first (10_state.md R14 (a), (b), (f)): with `k` pushes,
`next_slot = k mod N`, `filled_count = min(k, N)`, and each of the last `N` readings lies in the slot of its push
number modulo `N`. `hist` is not state; the block does not count pushes. -/
def Represents (hist : List Reading) (s : State) : Prop :=
  s.nextSlot = hist.length % s.cfg.n ∧
  s.filledCount = min hist.length s.cfg.n ∧
  ∀ (p : Nat) (hp : p < hist.length), hist.length ≤ p + s.cfg.n →
    Memory.read s.slots (p % s.cfg.n) = some hist[p]

/-- For `n <= k` and `i < n`: which of the pushes `0..k-1` slot `i` holds, the largest `p < k` with `p mod n = i`
(40_sample_averager.md R71, counting pushes from 0). -/
def ringIndex (n k i : Nat) : Nat := k - 1 - (k - 1 + n - i) % n

/-- The last `n` readings of `hist` in slot-index order, which is push order rotated (40_sample_averager.md R71). -/
def lastInSlotOrder (n : Nat) (hist : List Reading) : List Reading :=
  (List.range n).map (fun i => hist.getD (ringIndex n hist.length i) default)

/-- The event by which the host presents `PUSH` of a reading. -/
def pushEvent (r : Reading) : HostEvent := .command (encode (.push r.t r.h))

/-- Whether a command is a `PUSH`. -/
def isPush (c : Command) : Bool :=
  match decode c with
  | .push _ _ => true
  | .nop => false
  | .encode _ _ _ => false
  | .reserved => false

/-- The host's duties on the operands (60_exceptions.md R121): finite readings of the instance's `Sample`, and a payload
of `payload_len` bytes (which an instance without encoder does not look at, R101). -/
def dutyMet (cfg : Config) : HostEvent → Bool
  | .reset => true
  | .command c =>
    match decode c with
    | .nop => true
    | .push t h => readingValid cfg.sample (pushReading t h)
    | .encode payloadLen payload _ => !cfg.hasEncoder || payloadAgrees payloadLen payload
    | .reserved => true

/-- The number in a frame's length field: bytes 1 and 2, high byte first (30_encoding.md R52). -/
def lengthField (f : List Byte) : Nat := 256 * (f.getD 1 0).toNat + (f.getD 2 0).toNat

/-- The covered bytes of a frame: after the length field, before the checksum (41_frame_encoder.md R86). -/
def coveredBytes (f : List Byte) : List Byte := (f.drop 3).dropLast

/-- A finite value of the format; both zeros are. -/
def isValueOf (fmt : FloatFormat) (x : Sample) : Bool := isFinite x && isSampleOf (.binary fmt) x

end Sys2Proof.Machine
end

