-- ==== Sys2Proof/Certificates/Slice0/Obligations.lean ====
section
/-! DEFINITION. What is claimed of the block. Each statement is over every configuration, since the configuration is
part of the state. A clause that rests on a decision of the spec's own or on a choice of this model says so. -/

open Sys2Proof Sys2Proof.Machine

/-! ### Commands -/

/-- The four command codes (92_eei_decisions.md D2), with any operands on the lines. -/
def Obligations.DecodeReadsTheCommandCode : Prop :=
  ∀ c : Command,
    (c.cmd = 0b00#2 → decode c = .nop) ∧
    (c.cmd = 0b01#2 → decode c = .push c.t c.h) ∧
    (c.cmd = 0b10#2 → decode c = .encode c.payloadLen c.payload c.dest) ∧
    (c.cmd = 0b11#2 → decode c = .reserved)

/-- The words of the opcode table, operand lines zero, decode to their rows (spec/opcode_table.json, D2). -/
def Obligations.TableWordsDecodeToTheirRows : Prop :=
  decodeTableWord 8 0b00000000 = some .nop ∧
  decodeTableWord 8 0b00000001 = some (.push (.fin 0) (.fin 0)) ∧
  decodeTableWord 8 0b00000010 = some (.encode 0#16 [] (Vector.replicate 8 0#8)) ∧
  decodeTableWord 8 0b00000011 = some .reserved

/-- Decoding what the encoder presents gives the operation back, and encoding what a command decodes to gives a
command of the same code that decodes alike. -/
def Obligations.DecodeAndEncodeAgree : Prop :=
  (∀ i : Instr, decode (encode i) = i) ∧
  ∀ c : Command, (encode (decode c)).cmd = c.cmd ∧ decode (encode (decode c)) = decode c

/-- One step serves the oldest event of the host: a command runs the decoded operation, the reset event resets, and
with nothing presented the block holds its state and returns nothing (the model's choice, assumption log 1). -/
def Obligations.StepServesTheOldestEvent : Prop :=
  ∀ s : State,
    (s.host = [] → step s = .next { s with out := none }) ∧
    (∀ rest, s.host = .reset :: rest → step s = .next (resetEvent { s with host := rest })) ∧
    ∀ (c : Command) (rest : List HostEvent), s.host = .command c :: rest →
      step s = exec (decode c) { s with host := rest }

/-- A table word presented by `withFetchWord` runs as the next step's operation, whatever the host has pending. -/
def Obligations.PresentedWordRunsNext : Prop :=
  ∀ (s : State) (nbits w : Nat) (i : Instr), decodeTableWord nbits w = some i →
    step (s.withFetchWord nbits w) = exec i s

/-! ### NOP, the reserved command, ENCODE without the encoder -/

/-- `NOP` completes in every state, returns `OK` and writes no state (D2). -/
def Obligations.NopCompletesAndChangesNothing : Prop :=
  ∀ s : State, exec .nop s = .next { s with out := some .ok }

/-- The reserved command completes in every state, returns `ILLEGAL_CMD` and writes no state. It is the model's choice
to run it where the same rule also speaks of refusing it (assumption log 10, D17). -/
def Obligations.ReservedAnswersIllegalCommand : Prop :=
  ∀ s : State, exec .reserved s = .next { s with out := some (.err .illegalCmd) }

/-- `ENCODE` on an instance without the encoder looks at no operand, returns `ILLEGAL_CMD` and writes no state
(the model's choice to run it, assumption log 10, D17). -/
def Obligations.EncodeWithoutEncoderAnswersIllegalCommand : Prop :=
  ∀ (s : State) (payloadLen : BitVec 16) (payload : List Byte) (dest : Dest), s.cfg.hasEncoder = false →
    exec (.encode payloadLen payload dest) s = .next { s with out := some (.err .illegalCmd) }

/-! ### ENCODE -/

/-- R80 as written: for a payload of `payload_len` bytes, `ENCODE` completes in every state of an instance with the
encoder, writes no state, returns the error exactly when `P + 15 > 255`, and else the frame assembled from its parts,
`frame_len` being its length. -/
def Obligations.EncodeReturnsTheFrame : Prop :=
  ∀ (s : State) (payloadLen : BitVec 16) (payload : List Byte) (dest : Dest),
    s.cfg.hasEncoder = true → payload.length = payloadLen.toNat →
    cmdCode (.encode payloadLen payload dest) = 0b10#2 ∧
    (payload.length + 15 > 255 →
      exec (.encode payloadLen payload dest) s = .next { s with out := some (.err .payloadTooLarge) }) ∧
    (payload.length + 15 ≤ 255 →
      let content : List Byte := [0x00#8, 0x01#8] ++ dest.toList ++ [s.cfg.txOptions] ++ payload
      let header : List Byte :=
        [0x7E#8, BitVec.ofNat 8 ((payload.length + 11) / 256), BitVec.ofNat 8 ((payload.length + 11) % 256)]
      let sum : Byte := BitVec.ofNat 8 (255 - (content.map BitVec.toNat).sum % 256)
      let frame := header ++ content ++ [sum]
      exec (.encode payloadLen payload dest) s = .next { s with out := some (.frame frame) } ∧
        frameLen (.frame frame) = some (BitVec.ofNat 8 (payload.length + 15)))

/-- R89: above the bound the result is the error and nothing else, no state changes, and the error is not sticky: in
the state it leaves, a payload within the bound gets its frame. -/
def Obligations.OversizePayloadIsACheckedError : Prop :=
  ∀ (s : State) (payloadLen : BitVec 16) (payload : List Byte) (dest : Dest),
    s.cfg.hasEncoder = true → payload.length = payloadLen.toNat → 240 < payload.length →
    ∃ s', exec (.encode payloadLen payload dest) s = .next s' ∧ s' = { s with out := some (.err .payloadTooLarge) } ∧
      ∀ (legalLen : BitVec 16) (legal : List Byte) (dest' : Dest), legal.length = legalLen.toNat → legal.length ≤ 240 →
        exec (.encode legalLen legal dest') s' =
          .next { s with out := some (.frame (frameOf s.cfg.txOptions legal dest')) }

/-- `ENCODE` whose `payload_len` is not the number of payload bytes is refused by name where the encoder is present
(93_implementation_defined.md U9: not defined). -/
def Obligations.EncodeRefusesAWrongLength : Prop :=
  ∀ (s : State) (payloadLen : BitVec 16) (payload : List Byte) (dest : Dest), s.cfg.hasEncoder = true →
    payload.length ≠ payloadLen.toNat →
    exec (.encode payloadLen payload dest) s = .refused .payloadLengthMismatch

/-- R94 and R53: in every frame an `ENCODE` returns, in any state, the length field is the total length less 4, is the
count of the bytes after it and before the checksum, and is `P + 11`; the frame is `P + 15` bytes long. -/
def Obligations.LengthFieldCountsTheCoveredBytes : Prop :=
  ∀ (s s' : State) (payloadLen : BitVec 16) (payload : List Byte) (dest : Dest) (f : List Byte),
    exec (.encode payloadLen payload dest) s = .next s' → s'.out = some (.frame f) →
    lengthField f + 4 = f.length ∧
    lengthField f = (coveredBytes f).length ∧
    lengthField f = payload.length + 11 ∧
    f.length = payload.length + 15

/-- R86 and R88: the checksum of a returned frame is `255 - (sum mod 256)` over its bytes 3 to `13 + P`, it stands at
index `14 + P`, and nothing follows it. -/
def Obligations.ChecksumIsTheFinalByte : Prop :=
  ∀ (s s' : State) (payloadLen : BitVec 16) (payload : List Byte) (dest : Dest) (f : List Byte),
    exec (.encode payloadLen payload dest) s = .next s' → s'.out = some (.frame f) →
    f.length = 14 + payload.length + 1 ∧
    ∃ c : Byte, f[14 + payload.length]? = some c ∧
      c.toNat = 255 - byteSum ((f.drop 3).take (11 + payload.length)) % 256

/-- R93: the bytes from `frame_type` through the checksum sum to `0xFF` modulo 256. -/
def Obligations.ChecksumRoundTrip : Prop :=
  ∀ (s s' : State) (payloadLen : BitVec 16) (payload : List Byte) (dest : Dest) (f : List Byte),
    exec (.encode payloadLen payload dest) s = .next s' → s'.out = some (.frame f) →
    byteSum (f.drop 3) % 256 = 0xFF

/-- The three other forms of the checksum (41_frame_encoder.md section 2, a derivation of the spec's own): the running
8-bit sum, the bitwise complement of it, and the sum split by fields. -/
def Obligations.ChecksumFormsAgree : Prop :=
  (∀ content : List Byte,
    checksum content = 255#8 - content.foldl (fun acc b => acc + b) 0#8 ∧
    checksum content = ~~~ (content.foldl (fun acc b => acc + b) 0#8)) ∧
  ∀ (opts : Byte) (payload : List Byte) (dest : Dest),
    (checksum (frameContent opts payload dest)).toNat =
      255 - (1 + opts.toNat + byteSum dest.toList + byteSum payload) % 256

/-- R51: what stands at each index of a returned frame. -/
def Obligations.FrameLayout : Prop :=
  ∀ (s s' : State) (payloadLen : BitVec 16) (payload : List Byte) (dest : Dest) (f : List Byte),
    exec (.encode payloadLen payload dest) s = .next s' → s'.out = some (.frame f) →
    f.length = 15 + payload.length ∧
    f[0]? = some 0x7E#8 ∧
    f[1]? = some (BitVec.ofNat 8 ((payload.length + 11) / 256)) ∧
    f[2]? = some (BitVec.ofNat 8 ((payload.length + 11) % 256)) ∧
    f[3]? = some 0x00#8 ∧
    f[4]? = some 0x01#8 ∧
    (∀ (i : Nat) (h : i < 8), f[5 + i]? = some dest[i]) ∧
    f[13]? = some s.cfg.txOptions ∧
    (∀ (i : Nat) (h : i < payload.length), f[14 + i]? = some payload[i]) ∧
    f[14 + payload.length]? = some (checksum (coveredBytes f))

/-- The ranges that follow for every returned frame (a derivation of the spec's own, 41_frame_encoder.md section 4):
`P <= 240`, 15 to 255 bytes, length field 11 to 251 with high byte zero. -/
def Obligations.FrameRanges : Prop :=
  ∀ (i : Instr) (s s' : State) (f : List Byte), exec i s = .next s' → s'.out = some (.frame f) →
    15 ≤ f.length ∧ f.length ≤ 255 ∧ 11 ≤ lengthField f ∧ lengthField f ≤ 251 ∧ f[1]? = some 0x00#8 ∧
    ∃ (payloadLen : BitVec 16) (payload : List Byte) (dest : Dest),
      i = .encode payloadLen payload dest ∧ payload.length ≤ 240 ∧
      f[2]? = some (BitVec.ofNat 8 (payload.length + 11))

/-- R90: the empty payload gives a frame of exactly 15 bytes, length field `00 0B`, with the checksum of the 11 content
bytes at index 14. -/
def Obligations.EmptyPayloadGivesFifteenBytes : Prop :=
  ∀ (s : State) (dest : Dest), s.cfg.hasEncoder = true →
    ∃ f : List Byte, exec (.encode 0#16 [] dest) s = .next { s with out := some (.frame f) } ∧
      f.length = 15 ∧ f[1]? = some 0x00#8 ∧ f[2]? = some 0x0B#8 ∧
      coveredBytes f = [0x00#8, 0x01#8] ++ dest.toList ++ [s.cfg.txOptions] ∧
      f[14]? = some (checksum (coveredBytes f))

/-- A frame determines its operands (what follows from the layout of 30_encoding.md section 2): two `ENCODE`s, in any
states, that return the same frame had the same payload and destination on instances of the same options. That the bytes
are copied verbatim is said by `FrameLayout`. -/
def Obligations.FrameDeterminesItsOperands : Prop :=
  ∀ (s₁ s₂ t₁ t₂ : State) (l₁ l₂ : BitVec 16) (p₁ p₂ : List Byte) (d₁ d₂ : Dest) (f : List Byte),
    exec (.encode l₁ p₁ d₁) s₁ = .next t₁ → exec (.encode l₂ p₂ d₂) s₂ = .next t₂ →
    t₁.out = some (.frame f) → t₂.out = some (.frame f) →
    l₁ = l₂ ∧ p₁ = p₂ ∧ d₁ = d₂ ∧ s₁.cfg.txOptions = s₂.cfg.txOptions

/-- R92: `ENCODE` of the same payload and destination returns the same bytes on two instances of the same options,
whatever their windows, their earlier operations and what the host has pending. -/
def Obligations.EncodeIsDeterministic : Prop :=
  ∀ (s₁ s₂ : State) (payloadLen : BitVec 16) (payload : List Byte) (dest : Dest),
    s₁.cfg.hasEncoder = true → s₂.cfg.hasEncoder = true → s₁.cfg.txOptions = s₂.cfg.txOptions →
    payload.length = payloadLen.toNat →
    ∃ t₁ t₂, exec (.encode payloadLen payload dest) s₁ = .next t₁ ∧
      exec (.encode payloadLen payload dest) s₂ = .next t₂ ∧ t₁.out = t₂.out

/-- The byte-serial realisation refines the encoder (41_frame_encoder.md section 5, a decision of the spec's own): what
it emits is the frame, and nothing exactly when the result is the error. -/
def Obligations.SerialEmitterEmitsTheFrame : Prop :=
  ∀ (s : State) (payloadLen : BitVec 16) (payload : List Byte) (dest : Dest), s.cfg.hasEncoder = true →
    payload.length = payloadLen.toNat →
    exec (.encode payloadLen payload dest) s =
      .next { s with
        out := some (match serialEmit s.cfg.txOptions payload dest with
          | some f => .frame f
          | none => .err .payloadTooLarge) }

/-! ### PUSH -/

/-- R65 and R70: under the window's invariant a push of a valid reading (finite, of the instance's `Sample`) completes. It overwrites the slot at
`next_slot` and no other, advances the index modulo `N`, saturates the counter at `N`, returns `Some` of the two means
over all `N` slots in slot order, each over one component, exactly when the counter after the push is `N`, and `None`
otherwise; the status is `OK`. -/
def Obligations.PushStoresAdvancesAndAverages : Prop :=
  ∀ (s : State) (t h : Sample), WindowOk s → readingValid s.cfg.sample { t := t, h := h } = true →
    cmdCode (.push t h) = 0b01#2 ∧
    ∃ s', exec (.push t h) s = .next s' ∧
      slotRead s' s.nextSlot = .ok { t := t, h := h } ∧
      (∀ i, i ≠ s.nextSlot → slotRead s' i = slotRead s i) ∧
      s'.nextSlot = (s.nextSlot + 1) % s.cfg.n ∧
      s'.filledCount = min (s.filledCount + 1) s.cfg.n ∧
      s'.cfg = s.cfg ∧ s'.host = s.host ∧
      (s'.filledCount = s.cfg.n →
        ∃ rs : List Reading, rs.length = s.cfg.n ∧
          (∀ (i : Nat) (hi : i < rs.length), slotRead s' i = .ok rs[i]) ∧
          s'.out = some (.average (some
            { t := meanOf s.cfg (rs.map Reading.t), h := meanOf s.cfg (rs.map Reading.h) }))) ∧
      (s'.filledCount ≠ s.cfg.n → s'.out = some (.average none)) ∧
      ∃ r, s'.out = some r ∧ status r = 0#2

/-- Frame of `PUSH`, in every state: when it completes, the configuration, the pending events and every slot but the
one at `next_slot` before the push are unchanged. -/
def Obligations.PushFrame : Prop :=
  ∀ (s s' : State) (t h : Sample), exec (.push t h) s = .next s' →
    s'.cfg = s.cfg ∧ s'.host = s.host ∧ ∀ i, i ≠ s.nextSlot → slotRead s' i = slotRead s i

/-- A push of finite numbers of which one is no value of the instance's `Sample` is refused by name: it is no operand of
that instance (the model's way to keep the operand's type, assumption log 16). -/
def Obligations.PushRefusesAValueOutsideTheFormat : Prop :=
  ∀ (s : State) (t h : Sample), isFinite t = true → isFinite h = true →
    isSampleOf s.cfg.sample t = false ∨ isSampleOf s.cfg.sample h = false →
    exec (.push t h) s = .refused .notASample

/-- A push of a reading with a field that is not finite is refused by name (D6: not defined; "a model refuses"). -/
def Obligations.PushRefusesANonFiniteReading : Prop :=
  ∀ (s : State) (t h : Sample), isFinite t = false ∨ isFinite h = false →
    exec (.push t h) s = .refused .nonFiniteReading

/-- A slot index at or above `N` does not exist: a push there, in a state no run reaches, faults by name. The fault is
the model's choice (assumption log 6, DESIGN CHOICE); the spec says only that every index used is below `N`. -/
def Obligations.PushOutsideTheWindowFaults : Prop :=
  ∀ (s : State) (t h : Sample), readingValid s.cfg.sample { t := t, h := h } = true → s.cfg.n ≤ s.nextSlot →
    exec (.push t h) s = .fault (.slotOutOfRange s.nextSlot)

/-- A slot nothing has written has no value, and a model's read of it faults (D8, U4; assumption log 6): a push that
must average a window in which some other slot is not listed, in a state no run reaches, faults by name on a slot that
is not listed. -/
def Obligations.AveragingAnUnwrittenSlotFaults : Prop :=
  ∀ (s : State) (t h : Sample) (i : Nat), readingValid s.cfg.sample { t := t, h := h } = true → s.nextSlot < s.cfg.n →
    min (s.filledCount + 1) s.cfg.n = s.cfg.n → i < s.cfg.n → i ≠ s.nextSlot → Memory.read s.slots i = none →
    ∃ j, exec (.push t h) s = .fault (.unwrittenSlot j) ∧ j < s.cfg.n ∧ j ≠ s.nextSlot ∧
      Memory.read s.slots j = none

/-- R11: `next_slot` is where a push writes; only `PUSH` changes it, always by one up modulo `N`, and it stays below
`N`. -/
def Obligations.OnlyPushMovesNextSlot : Prop :=
  ∀ (i : Instr) (s s' : State), exec i s = .next s' →
    (s.nextSlot < s.cfg.n → s'.nextSlot < s'.cfg.n) ∧
    match i with
    | .push t h => Memory.read s'.slots s.nextSlot = some { t := t, h := h } ∧
        s'.nextSlot = (s.nextSlot + 1) % s.cfg.n
    | .nop => s'.nextSlot = s.nextSlot
    | .encode _ _ _ => s'.nextSlot = s.nextSlot
    | .reserved => s'.nextSlot = s.nextSlot

/-- R12: `filled_count` counts the written slots and stays at most `N`; only `PUSH` changes it, one up until it is `N`;
nothing but the reset event decreases it. -/
def Obligations.FilledCountSaturates : Prop :=
  ∀ s s' : State, WindowOk s → step s = .next s' →
    s'.filledCount = s'.slots.length ∧ s'.filledCount ≤ s'.cfg.n ∧
    match s.host with
    | [] => s'.filledCount = s.filledCount
    | .reset :: _ => s'.filledCount = 0
    | .command c :: _ =>
      s.filledCount ≤ s'.filledCount ∧
      match decode c with
      | .push _ _ => s'.filledCount = min (s.filledCount + 1) s.cfg.n
      | .nop => s'.filledCount = s.filledCount
      | .encode _ _ _ => s'.filledCount = s.filledCount
      | .reserved => s'.filledCount = s.filledCount

/-- R13: `filled_count <= N`; a ready window stays ready over any number of steps that serve no reset event, and a push
in a ready window overwrites the oldest of the last `N` readings. -/
def Obligations.ReadyForTheWholeLifetime : Prop :=
  (∀ (k : Nat) (s s' : State), WindowOk s → ready s = true → (∀ e ∈ s.host, e ≠ .reset) →
    Host.Core.run core k s = .next s' → s'.filledCount ≤ s'.cfg.n ∧ ready s' = true) ∧
  ∀ (hist : List Reading) (s s' : State) (t h : Sample), Represents hist s → (hN : s.cfg.n ≤ hist.length) →
    exec (.push t h) s = .next s' →
    slotRead s s.nextSlot = .ok (hist[hist.length - s.cfg.n]'(Nat.sub_lt (Nat.lt_of_lt_of_le s.cfg.n_pos hN) s.cfg.n_pos)) ∧
    slotRead s' s.nextSlot = .ok { t := t, h := h }

/-- The widths of index and counter (D3) hold every legal value, and no smaller width would. -/
def Obligations.CounterWidthsSuffice : Prop :=
  ∀ n : Nat, 1 ≤ n →
    (∀ i, i < n → i < 2 ^ idxWidth n) ∧
    (∀ k, k ≤ n → k < 2 ^ cntWidth n) ∧
    (∀ w, 1 ≤ w → (∀ i, i < n → i < 2 ^ w) → idxWidth n ≤ w) ∧
    ∀ w, (∀ k, k ≤ n → k < 2 ^ w) → cntWidth n ≤ w

/-- Temperature and humidity are never mixed (40_sample_averager.md section 3). Two windows of one configuration that
agree in index and stored temperatures, given one temperature with two humidities, return averages that agree in
temperature; and the same with the components exchanged. Read of two instances whose `mean` is open, it rests on the
model's choice of assumption log 17. That each mean is over exactly the `N` values of its component is said by
`PushStoresAdvancesAndAverages`. -/
def Obligations.ComponentsAreNeverMixed : Prop :=
  ∀ (s₁ s₂ t₁ t₂ : State) (a₁ a₂ : Average) (t h t' h' : Sample),
    s₁.cfg = s₂.cfg → s₁.nextSlot = s₂.nextSlot →
    exec (.push t h) s₁ = .next t₁ → exec (.push t' h') s₂ = .next t₂ →
    t₁.out = some (.average (some a₁)) → t₂.out = some (.average (some a₂)) →
    (t = t' → (∀ i, (Memory.read s₁.slots i).map Reading.t = (Memory.read s₂.slots i).map Reading.t) → a₁.t = a₂.t) ∧
    (h = h' → (∀ i, (Memory.read s₁.slots i).map Reading.h = (Memory.read s₂.slots i).map Reading.h) → a₁.h = a₂.h)

/-! ### Reset -/

/-- R24: after reset `filled_count` is 0 and `ready` is 0, for every instance and from every state the reset event
meets. -/
def Obligations.ResetLeavesAnEmptyWindow : Prop :=
  (∀ cfg : Config, (State.resetWith cfg).filledCount = 0 ∧ ready (State.resetWith cfg) = false) ∧
  ∀ s : State, (resetEvent s).filledCount = 0 ∧ ready (resetEvent s) = false

/-- The reset event completes whenever it is served: `next_slot` is 0 (D7), no slot has a value (D8), no result is
returned (D18), the configuration and the events still pending stand. -/
def Obligations.ResetEventClearsOnlyTheWindow : Prop :=
  ∀ (s : State) (rest : List HostEvent), s.host = .reset :: rest →
    ∃ s', step s = .next s' ∧ s'.nextSlot = 0 ∧ s'.filledCount = 0 ∧ s'.cfg = s.cfg ∧ s'.host = rest ∧ s'.out = none ∧
      ∀ i, i < s.cfg.n → slotRead s' i = .error (.unwrittenSlot i)

/-! ### The whole machine -/

/-- Every instance meets the window's invariant right after reset, with any events pending. -/
def Obligations.ResetMeetsTheInvariant : Prop :=
  ∀ (cfg : Config) (es : List HostEvent), WindowOk { State.resetWith cfg with host := es }

/-- Every step keeps the window's invariant (with the canonical form of the slot array, which it implies). -/
def Obligations.EveryStepKeepsTheInvariant : Prop :=
  ∀ s s' : State, WindowOk s → step s = .next s' → WindowOk s' ∧ Memory.wf s'.slots = true

/-- Under the invariant no step faults, for whatever the host presents (R78: no slot access can fault). -/
def Obligations.NoStepFaultsUnderTheInvariant : Prop :=
  ∀ (s : State) (f : Fault), WindowOk s → step s ≠ .fault f

/-- Every operation completes: under the invariant, a list of events on each of which the host meets its duties
(60_exceptions.md section 7) runs to its end, without a fault or a refusal. -/
def Obligations.EveryDutifulRunCompletes : Prop :=
  ∀ s : State, WindowOk s → (∀ e ∈ s.host, dutyMet s.cfg e = true) →
    ∃ s', Host.Core.run core s.host.length s = .next s' ∧ s'.host = [] ∧ WindowOk s' ∧ s'.cfg = s.cfg

/-- No step changes the configuration. -/
def Obligations.ConfigurationNeverChanges : Prop :=
  ∀ s s' : State, step s = .next s' → s'.cfg = s.cfg

/-- Frame of `NOP`, `ENCODE` and the reserved command, in every state: when one completes, nothing but the returned
result differs: the configuration, every slot, `next_slot`, `filled_count`, `ready` and the pending events are as
before. -/
def Obligations.OtherOperationsLeaveTheWindow : Prop :=
  ∀ (i : Instr) (s s' : State), (∀ t h, i ≠ .push t h) → exec i s = .next s' →
    s'.cfg = s.cfg ∧ s'.slots = s.slots ∧ s'.nextSlot = s.nextSlot ∧ s'.filledCount = s.filledCount ∧
    s'.host = s.host ∧ ready s' = ready s ∧ ∀ k, slotRead s' k = slotRead s k

/-- An operation that returns an error has changed nothing, and is none of `NOP` and `PUSH`. -/
def Obligations.AnErrorChangesNothing : Prop :=
  ∀ (i : Instr) (s s' : State) (e : ErrorCode), exec i s = .next s' → s'.out = some (.err e) →
    s' = { s with out := some (.err e) } ∧ i ≠ .nop ∧ ∀ t h, i ≠ .push t h

/-- Every operation that completes returns a result, its status is 0, 1 or 2 (the codes are D13), `NOP` and `PUSH`
return `OK` (0), the reserved command 2, and `ENCODE` returns 2 exactly without the encoder, 1 exactly with it and
above 240 bytes. -/
def Obligations.StatusOfEveryOperation : Prop :=
  ∀ (i : Instr) (s s' : State), exec i s = .next s' → ∃ r, s'.out = some r ∧ status r ≠ 3#2 ∧
    match i with
    | .nop => status r = 0#2 ∧ avgValid r = none
    | .push _ _ => status r = 0#2 ∧ avgValid r = some (ready s')
    | .encode _ payload _ => (status r = 2#2 ↔ s.cfg.hasEncoder = false) ∧
        (status r = 1#2 ↔ s.cfg.hasEncoder = true ∧ 240 < payload.length) ∧
        (status r = 0#2 ↔ (frameLen r).isSome = true)
    | .reserved => status r = 2#2

/-- Results are not latched (10_state.md section 3): no step depends on the result of an earlier one. -/
def Obligations.ResultsAreNotLatched : Prop :=
  ∀ (s : State) (o : Option Result), step { s with out := o } = step s

/-- One push extends what the window holds of the pushes so far (10_state.md section 2, a derivation of the spec's own
by induction on `k`, resting on the decision D7); an empty history is what the window holds after reset. -/
def Obligations.PushExtendsTheHistory : Prop :=
  (∀ cfg : Config, Represents [] (State.resetWith cfg)) ∧
  ∀ (hist : List Reading) (s s' : State) (t h : Sample), Represents hist s → exec (.push t h) s = .next s' →
    Represents (hist ++ [{ t := t, h := h }]) s'

/-- Ring semantics over whole runs (40_sample_averager.md section 3, with conflicts C8 and C9 and the decision D7),
warm-up after a reset in mid-run included (70_reset_and_hazards.md section 3): from every state, the reset event and
then any valid readings pushed one after the other complete, leave the window holding the last `N` of them, make it
ready exactly when `N` or more were pushed, and the last push returns `Some` of the means of the most recent `N`
readings in slot-index order exactly then, `None` before. -/
def Obligations.RingSemanticsAfterReset : Prop :=
  ∀ (s : State) (rs : List Reading), (∀ r ∈ rs, readingValid s.cfg.sample r = true) → rs ≠ [] →
    ∃ s', Host.Core.run core (rs.length + 1) { s with host := .reset :: rs.map pushEvent } = .next s' ∧
      s'.cfg = s.cfg ∧ Represents rs s' ∧
      (ready s' = true ↔ s.cfg.n ≤ rs.length) ∧
      s'.out = some (.average
        (if s.cfg.n ≤ rs.length then
          some { t := meanOf s.cfg ((lastInSlotOrder s.cfg.n rs).map Reading.t),
                 h := meanOf s.cfg ((lastInSlotOrder s.cfg.n rs).map Reading.h) }
        else none))

/-- The slot-index order of the ring is push order rotated (40_sample_averager.md section 3): once `N` or more readings
were pushed, slot `i` holds one of the last `N` of them, the one whose push number from 0 is `i` modulo `N`. -/
def Obligations.SlotOrderIsPushOrderRotated : Prop :=
  ∀ (hist : List Reading) (s : State) (i : Nat), Represents hist s → s.cfg.n ≤ hist.length → i < s.cfg.n →
    ∃ h : ringIndex s.cfg.n hist.length i < hist.length,
      slotRead s i = .ok hist[ringIndex s.cfg.n hist.length i] ∧
      hist.length ≤ ringIndex s.cfg.n hist.length i + s.cfg.n ∧
      ringIndex s.cfg.n hist.length i % s.cfg.n = i

/-- The window and its index and counter depend on the pushes alone (20_memory.md section 4, 60_exceptions.md section
1): a run of commands that completes leaves the window as a run of its pushes alone does, which completes too, so that
operations between two pushes, and failed acquisitions, leave no trace. -/
def Obligations.WindowDependsOnPushesAlone : Prop :=
  ∀ (s s' : State) (cs : List Command),
    Host.Core.run core cs.length { s with host := cs.map HostEvent.command } = .next s' →
    ∃ s'', Host.Core.run core (cs.filter isPush).length
        { s with host := (cs.filter isPush).map HostEvent.command } = .next s'' ∧
      s''.slots = s'.slots ∧ s''.nextSlot = s'.nextSlot ∧ s''.filledCount = s'.filledCount ∧ s''.cfg = s'.cfg

/-! ### The reference mean -/

/-- Exact convergence where the spec derives it for the reference mean in binary32 (40_sample_averager.md section 3,
90_conflicts.md C1): for `N = 1` every finite value, and for `N = 2` every one whose double does not overflow, but that
a negative zero comes back as the positive zero it equals. -/
def Obligations.ReferenceMeanOfEqualValues : Prop :=
  ∀ x : Sample, isValueOf binary32 x = true →
    (x ≠ .negZero → referenceMean binary32 [x] = x) ∧
    (x ≠ .negZero → isFinite (fadd binary32 x x) = true → referenceMean binary32 [x, x] = x) ∧
    (x = .negZero → referenceMean binary32 [x] = .fin 0 ∧ referenceMean binary32 [x, x] = .fin 0)

/-- For `N <= 2` the order of the reference mean does not matter (40_sample_averager.md section 3, a derivation of the
spec's own). -/
def Obligations.ReferenceMeanOfTwoIgnoresOrder : Prop :=
  ∀ x y : Sample, isValueOf binary32 x = true → isValueOf binary32 y = true →
    referenceMean binary32 [x, y] = referenceMean binary32 [y, x]

/-- A window of negative zeros averages to the positive zero under the reference mean in binary32, for every `N`
(40_sample_averager.md section 3, signed zero). -/
def Obligations.ReferenceMeanOfNegativeZeros : Prop :=
  ∀ n : Nat, 1 ≤ n → referenceMean binary32 (List.replicate n .negZero) = .fin 0

/-- The average that a completed push returns is of the instance's `Sample` in both components, for the open mean and
for the reference in every binary format (`mean : Sample^N -> Sample`, 00_scope.md section 4); that the open mean keeps
to the type is the model's own (assumption log 4). -/
def Obligations.EveryAverageIsOfTheFormat : Prop :=
  ∀ (s s' : State) (t h : Sample) (a : Average), exec (.push t h) s = .next s' → s'.out = some (.average (some a)) →
    isSampleOf s.cfg.sample a.t = true ∧ isSampleOf s.cfg.sample a.h = true

/-- With `N = 1`, binary32 and the reference mean, every push of a valid reading with no negative zero returns its own
operands (40_sample_averager.md sections 1 and 3; about the reference instantiation, assumption log 4). -/
def Obligations.SingleSlotReferenceReturnsItsOperand : Prop :=
  ∀ (s : State) (t h : Sample), WindowOk s → s.cfg.n = 1 → s.cfg.sample = .binary binary32 → s.cfg.mean = .reference →
    readingValid (.binary binary32) { t := t, h := h } = true → t ≠ .negZero → h ≠ .negZero →
    ∃ s', exec (.push t h) s = .next s' ∧ s'.out = some (.average (some { t := t, h := h }))
end

