-- ==== Sys2Proof/Laws/Float.lean ====
section
/-! SUPPORT. Powers of two, the binary exponent of a rational, rounding where nothing is lost, and that rounding answers
a value of its format. -/

namespace Sys2Proof.Machine

theorem pow2_eq_zpow (e : Int) : pow2 e = (2 : ℚ) ^ e := by
  cases e with
  | ofNat k => simp [pow2, Rat.mkRat_eq_div]
  | negSucc k => simp [pow2, Rat.mkRat_eq_div, zpow_negSucc]

theorem pow2_pos (e : Int) : 0 < pow2 e := by
  rw [pow2_eq_zpow]
  positivity

theorem pow2_succ (e : Int) : pow2 (e + 1) = 2 * pow2 e := by
  rw [pow2_eq_zpow, pow2_eq_zpow, zpow_add₀ (by norm_num)]
  ring

theorem pow2_le_pow2 {a b : Int} (h : a ≤ b) : pow2 a ≤ pow2 b := by
  rw [pow2_eq_zpow, pow2_eq_zpow]
  exact zpow_le_zpow_right₀ (by norm_num) h

/-- An integer rounds to itself. -/
theorem roundHalfEven_intCast (z : Int) : roundHalfEven (z : ℚ) = z := by
  unfold roundHalfEven
  simp only [Rat.floor_intCast, sub_self]
  rw [if_pos (by norm_num [Rat.mkRat_eq_div])]

/-- `floorLog2` is the exponent of the greatest power of two not above its argument. -/
theorem floorLog2_spec {q : ℚ} (hq : 0 < q) : pow2 (floorLog2 q) ≤ q ∧ q < pow2 (floorLog2 q + 1) := by
  have hnum : 0 < q.num := Rat.num_pos.2 hq
  have hn : q.num.natAbs ≠ 0 := by omega
  set a := Nat.log2 q.num.natAbs with ha
  set b := Nat.log2 q.den with hb
  have hfrac : q = (q.num.natAbs : ℚ) / (q.den : ℚ) := by
    conv_lhs => rw [← Rat.num_div_den q]
    rw [Nat.cast_natAbs, abs_of_pos hnum]
  have hden : (0 : ℚ) < q.den := by exact_mod_cast q.den_pos
  have hnLow : (2 : ℚ) ^ a ≤ q.num.natAbs := by exact_mod_cast Nat.log2_self_le hn
  have hnHigh : (q.num.natAbs : ℚ) < 2 ^ (a + 1) := by exact_mod_cast Nat.lt_log2_self
  have hdLow : (2 : ℚ) ^ b ≤ q.den := by exact_mod_cast Nat.log2_self_le q.den_nz
  have hdHigh : (q.den : ℚ) < 2 ^ (b + 1) := by exact_mod_cast Nat.lt_log2_self
  have high : q < pow2 ((a : Int) - b + 1) := by
    rw [pow2_eq_zpow, show ((a : Int) - b + 1) = ((a + 1 : ℕ) : Int) - (b : ℕ) by push_cast; ring,
      zpow_sub₀ (by norm_num), zpow_natCast, zpow_natCast, hfrac, div_lt_div_iff₀ hden (by positivity)]
    calc (q.num.natAbs : ℚ) * 2 ^ b ≤ (q.num.natAbs : ℚ) * q.den := by gcongr
      _ < 2 ^ (a + 1) * q.den := by gcongr
  have low : pow2 ((a : Int) - b - 1) ≤ q := by
    rw [pow2_eq_zpow, show ((a : Int) - b - 1) = ((a : ℕ) : Int) - ((b + 1 : ℕ) : Int) by push_cast; ring,
      zpow_sub₀ (by norm_num), zpow_natCast, zpow_natCast, hfrac, div_le_div_iff₀ (by positivity) hden]
    calc (2 : ℚ) ^ a * q.den ≤ 2 ^ a * 2 ^ (b + 1) := by gcongr
      _ ≤ (q.num.natAbs : ℚ) * 2 ^ (b + 1) := by gcongr
  unfold floorLog2
  simp only
  split
  · rename_i h
    exact ⟨low, by simpa using h⟩
  · rename_i h
    exact ⟨not_lt.1 h, high⟩

/-- A magnitude that is a whole number of last places is rounded to itself. -/
theorem roundMagnitude_of_whole {fmt : FloatFormat} {q : ℚ} {z : Int}
    (h : q = z * pow2 (lastPlace fmt q)) : roundMagnitude fmt q = q := by
  unfold roundMagnitude
  have hz : q / pow2 (lastPlace fmt q) = z := by
    rw [div_eq_iff (pow2_pos _).ne']
    exact h
  rw [hz, roundHalfEven_intCast]
  exact h.symm

@[simp] theorem isSampleOf_unspecified (x : Sample) : isSampleOf .unspecified x = true := rfl

@[simp] theorem isSampleOf_nan (f : SampleFormat) : isSampleOf f .nan = true := by
  cases f <;> rfl

@[simp] theorem isSampleOf_signedZero (fmt : FloatFormat) (neg : Bool) :
    isSampleOf (.binary fmt) (signedZero neg) = true := by
  cases neg <;> simp [signedZero, isSampleOf]

@[simp] theorem isSampleOf_signedInf (fmt : FloatFormat) (neg : Bool) :
    isSampleOf (.binary fmt) (signedInf neg) = true := by
  cases neg <;> rfl

theorem pow2_add (a b : Int) : pow2 (a + b) = pow2 a * pow2 b := by
  rw [pow2_eq_zpow, pow2_eq_zpow, pow2_eq_zpow, zpow_add₀ (by norm_num)]

theorem pow2_natCast (n : Nat) : pow2 n = ((2 ^ n : Int) : ℚ) := by
  rw [pow2_eq_zpow]
  simp

/-- `floorLog2` of a power of two is its exponent. -/
theorem floorLog2_pow2 (k : Int) : floorLog2 (pow2 k) = k := by
  obtain ⟨low, high⟩ := floorLog2_spec (pow2_pos k)
  by_contra hne
  rcases lt_or_gt_of_ne hne with h | h
  · exact absurd (pow2_le_pow2 (show floorLog2 (pow2 k) + 1 ≤ k by omega)) (not_le.2 high)
  · have := pow2_le_pow2 (show k + 1 ≤ floorLog2 (pow2 k) by omega)
    linarith [pow2_succ k, pow2_pos k]

/-- Rounding does not pass an integer above. -/
theorem roundHalfEven_le {x : ℚ} {z : Int} (h : x < z) : roundHalfEven x ≤ z := by
  have : x.floor < z := Rat.floor_lt_iff.2 h
  unfold roundHalfEven
  simp only
  split <;> [omega; split <;> [omega; split <;> omega]]

theorem roundHalfEven_nonneg {x : ℚ} (h : 0 ≤ x) : 0 ≤ roundHalfEven x := by
  have : 0 ≤ x.floor := Rat.le_floor_iff.2 (by simpa using h)
  unfold roundHalfEven
  simp only
  split <;> [omega; split <;> [omega; split <;> omega]]

/-- A magnitude that does not round to zero rounds to a positive whole number of its own last places: it stays below
the next power of two, or becomes a power of two. -/
theorem roundMagnitude_whole (fmt : FloatFormat) {q : ℚ} (hq : 0 < q) (hne : roundMagnitude fmt q ≠ 0) :
    0 < roundMagnitude fmt q ∧
      ∃ z : Int, roundMagnitude fmt q = z * pow2 (lastPlace fmt (roundMagnitude fmt q)) := by
  have hb := (floorLog2_spec hq).2
  have hprec := fmt.precision_pos
  set k := floorLog2 q with hk
  set lp := lastPlace fmt q with hlp
  have hlpk : lp = max fmt.minExp (k - ((fmt.precision : Int) - 1)) := rfl
  set z := roundHalfEven (q / pow2 lp) with hz
  have hm : roundMagnitude fmt q = z * pow2 lp := rfl
  have hunit := pow2_pos lp
  have hz0 : 0 < z := by
    have h0 : 0 ≤ z := roundHalfEven_nonneg (by positivity)
    have h1 : z ≠ 0 := fun h => hne (by rw [hm, h]; simp)
    omega
  have hpos : 0 < roundMagnitude fmt q := by
    have : (0 : ℚ) < z := by exact_mod_cast hz0
    rw [hm]
    positivity
  refine ⟨hpos, ?_⟩
  by_cases hlt : roundMagnitude fmt q < pow2 (k + 1)
  · have hle : lastPlace fmt (roundMagnitude fmt q) ≤ lp := by
      have : floorLog2 (roundMagnitude fmt q) ≤ k := by
        by_contra hc
        have h1 := (floorLog2_spec hpos).1
        have h2 := pow2_le_pow2 (show k + 1 ≤ floorLog2 (roundMagnitude fmt q) by omega)
        linarith
      unfold lastPlace
      omega
    obtain ⟨d, hd⟩ := Int.le.dest hle
    refine ⟨z * 2 ^ d, ?_⟩
    generalize lastPlace fmt (roundMagnitude fmt q) = l at hd
    rw [hm, ← hd, pow2_add, pow2_natCast]
    push_cast
    ring
  · rw [not_lt] at hlt
    obtain ⟨j, hlj, hj⟩ : ∃ j, lp ≤ j ∧ roundMagnitude fmt q = pow2 j := by
      by_cases hc : lp ≤ k + 1
      · obtain ⟨d, hd⟩ := Int.le.dest hc
        refine ⟨k + 1, hc, le_antisymm ?_ hlt⟩
        have hle : z ≤ 2 ^ d := by
          apply roundHalfEven_le
          rw [div_lt_iff₀ hunit, ← pow2_natCast, mul_comm, ← pow2_add, hd]
          exact hb
        have : (z : ℚ) ≤ ((2 ^ d : Int) : ℚ) := by exact_mod_cast hle
        rw [hm, ← hd, pow2_add, pow2_natCast, mul_comm]
        gcongr
      · refine ⟨lp, le_rfl, ?_⟩
        have hle : z ≤ 1 := by
          apply roundHalfEven_le
          rw [div_lt_iff₀ hunit, Int.cast_one, one_mul]
          exact lt_of_lt_of_le hb (pow2_le_pow2 (by omega))
        rw [hm, show z = 1 by omega]
        simp
    rw [hj]
    have hle : lastPlace fmt (pow2 j) ≤ j := by
      unfold lastPlace
      rw [floorLog2_pow2]
      omega
    obtain ⟨d, hd⟩ := Int.le.dest hle
    refine ⟨2 ^ d, ?_⟩
    generalize lastPlace fmt (pow2 j) = l at hd
    rw [← hd, pow2_add, pow2_natCast]
    ring

/-- A whole number of its last places below the overflow bound rounds to itself. -/
theorem roundTo_of_whole {fmt : FloatFormat} {q : ℚ} {z : Int} (hq : q ≠ 0)
    (h : |q| = z * pow2 (lastPlace fmt |q|)) (hmax : ¬ pow2 fmt.maxExp ≤ |q|) : roundTo fmt q = .fin q := by
  unfold roundTo
  simp only [roundMagnitude_of_whole h]
  rw [if_neg hmax, if_neg (abs_pos.2 hq).ne']
  by_cases hn : q < 0
  · simp [hn, abs_of_neg hn]
  · simp [hn, abs_of_nonneg (not_lt.1 hn)]

/-- Rounding to a binary format answers one of its values. -/
theorem roundTo_isSampleOf (fmt : FloatFormat) {q : ℚ} (hq : q ≠ 0) :
    isSampleOf (.binary fmt) (roundTo fmt q) = true := by
  have habs := abs_pos.2 hq
  unfold roundTo
  simp only
  split
  · simp
  · rename_i hmax
    split
    · simp
    · rename_i hne
      obtain ⟨hpos, z, hz⟩ := roundMagnitude_whole fmt habs hne
      generalize roundMagnitude fmt |q| = m at *
      have hval : ∀ x : ℚ, |x| = m → isSampleOf (.binary fmt) (.fin x) = true := by
        rintro x rfl
        simp [isSampleOf, roundTo_of_whole (abs_pos.1 hpos) hz hmax]
      split
      · exact hval _ (by rw [abs_neg, abs_of_pos hpos])
      · exact hval _ (abs_of_pos hpos)

end Sys2Proof.Machine
end

