-- ==== Sys2Proof/Laws/Frame.lean ====
section
/-! SUPPORT. Lengths and sums of frames. -/

namespace Sys2Proof.Machine

@[simp] theorem byteSum_nil : byteSum [] = 0 := rfl

@[simp] theorem byteSum_cons (b : Byte) (bs : List Byte) : byteSum (b :: bs) = b.toNat + byteSum bs := by
  simp [byteSum]

@[simp] theorem byteSum_append (as bs : List Byte) : byteSum (as ++ bs) = byteSum as + byteSum bs := by
  simp [byteSum]

/-- A checksum as a number: no wrap, since `sum mod 256` is at most 255 (41_frame_encoder.md R86). -/
theorem checksum_toNat (bs : List Byte) : (checksum bs).toNat = 255 - byteSum bs % 256 := by
  unfold checksum
  rw [BitVec.toNat_ofNat]
  exact Nat.mod_eq_of_lt (by omega)

@[simp] theorem frameHeader_length (p : Nat) : (frameHeader p).length = 3 := rfl

@[simp] theorem frameContent_length (opts : Byte) (payload : List Byte) (dest : Dest) :
    (frameContent opts payload dest).length = payload.length + 11 := by
  simp [frameContent]
  omega

@[simp] theorem frameOf_length (opts : Byte) (payload : List Byte) (dest : Dest) :
    (frameOf opts payload dest).length = payload.length + 15 := by
  simp [frameOf]
  omega

theorem frameDataLen_eq (p : Nat) : frameDataLen p = p + 11 := by
  simp [frameDataLen, frameTotalLen, frameOverhead, lenExcluded]

/-- The bound of 41_frame_encoder.md R82 on the operand. -/
theorem encodeResult_eq (opts : Byte) (payload : List Byte) (dest : Dest) :
    encodeResult opts payload dest =
      if payload.length ≤ 240 then .frame (frameOf opts payload dest) else .err .payloadTooLarge := by
  unfold encodeResult frameTotalLen frameOverhead frameMax
  by_cases h : payload.length ≤ 240
  · rw [if_neg (by omega), if_pos h]
  · rw [if_pos (by omega), if_neg h]

end Sys2Proof.Machine
end

