-- ==== Sys2Proof/Laws/State.lean ====
section
/-! SUPPORT. One lemma per field per update of the state, and the fields of the state after reset. -/

namespace Sys2Proof.Machine

section
variable (s : State) (m : Memory) (i : Nat) (es : List HostEvent) (o : Option Result)

@[simp] theorem withSlots_cfg : (s.withSlots m).cfg = s.cfg := rfl
@[simp] theorem withSlots_slots : (s.withSlots m).slots = m := rfl
@[simp] theorem withSlots_nextSlot : (s.withSlots m).nextSlot = s.nextSlot := rfl
@[simp] theorem withSlots_filledCount : (s.withSlots m).filledCount = s.filledCount := rfl
@[simp] theorem withSlots_host : (s.withSlots m).host = s.host := rfl
@[simp] theorem withSlots_out : (s.withSlots m).out = s.out := rfl

@[simp] theorem withNextSlot_cfg : (s.withNextSlot i).cfg = s.cfg := rfl
@[simp] theorem withNextSlot_slots : (s.withNextSlot i).slots = s.slots := rfl
@[simp] theorem withNextSlot_nextSlot : (s.withNextSlot i).nextSlot = i := rfl
@[simp] theorem withNextSlot_filledCount : (s.withNextSlot i).filledCount = s.filledCount := rfl
@[simp] theorem withNextSlot_host : (s.withNextSlot i).host = s.host := rfl
@[simp] theorem withNextSlot_out : (s.withNextSlot i).out = s.out := rfl

@[simp] theorem withFilledCount_cfg : (s.withFilledCount i).cfg = s.cfg := rfl
@[simp] theorem withFilledCount_slots : (s.withFilledCount i).slots = s.slots := rfl
@[simp] theorem withFilledCount_nextSlot : (s.withFilledCount i).nextSlot = s.nextSlot := rfl
@[simp] theorem withFilledCount_filledCount : (s.withFilledCount i).filledCount = i := rfl
@[simp] theorem withFilledCount_host : (s.withFilledCount i).host = s.host := rfl
@[simp] theorem withFilledCount_out : (s.withFilledCount i).out = s.out := rfl

@[simp] theorem withHost_cfg : (s.withHost es).cfg = s.cfg := rfl
@[simp] theorem withHost_slots : (s.withHost es).slots = s.slots := rfl
@[simp] theorem withHost_nextSlot : (s.withHost es).nextSlot = s.nextSlot := rfl
@[simp] theorem withHost_filledCount : (s.withHost es).filledCount = s.filledCount := rfl
@[simp] theorem withHost_host : (s.withHost es).host = es := rfl
@[simp] theorem withHost_out : (s.withHost es).out = s.out := rfl

@[simp] theorem withOut_cfg : (s.withOut o).cfg = s.cfg := rfl
@[simp] theorem withOut_slots : (s.withOut o).slots = s.slots := rfl
@[simp] theorem withOut_nextSlot : (s.withOut o).nextSlot = s.nextSlot := rfl
@[simp] theorem withOut_filledCount : (s.withOut o).filledCount = s.filledCount := rfl
@[simp] theorem withOut_host : (s.withOut o).host = s.host := rfl
@[simp] theorem withOut_out : (s.withOut o).out = o := rfl

end

section
variable (cfg : Config)

@[simp] theorem resetWith_cfg : (State.resetWith cfg).cfg = cfg := rfl
@[simp] theorem resetWith_slots : (State.resetWith cfg).slots = [] := rfl
@[simp] theorem resetWith_nextSlot : (State.resetWith cfg).nextSlot = 0 := rfl
@[simp] theorem resetWith_filledCount : (State.resetWith cfg).filledCount = 0 := rfl
@[simp] theorem resetWith_host : (State.resetWith cfg).host = [] := rfl
@[simp] theorem resetWith_out : (State.resetWith cfg).out = none := rfl

end

/-- Two states with the same fields are one state. -/
theorem state_ext {a b : State} (hc : a.cfg = b.cfg) (hs : a.slots = b.slots) (hn : a.nextSlot = b.nextSlot)
    (hf : a.filledCount = b.filledCount) (hh : a.host = b.host) (ho : a.out = b.out) : a = b := by
  cases a
  cases b
  simp_all

end Sys2Proof.Machine
end

