-- ==== Sys2Proof/Laws/Slots.lean ====
section
/-! SUPPORT. The slot array as a memory: read after write, other slots, and the canonical form. -/

namespace Sys2Proof.Machine

@[simp] theorem memory_read_nil (i : Nat) : Memory.read [] i = none := rfl

/-- A read after a write to the same slot gives the reading written. -/
@[simp] theorem memory_read_write_same (m : Memory) (i : Nat) (r : Reading) :
    Memory.read (Memory.write m i r) i = some r := by
  induction m with
  | nil => simp [Memory.write, Memory.read]
  | cons c rest ih =>
    obtain ⟨j, x⟩ := c
    by_cases h1 : i < j
    · simp [Memory.write, Memory.read, h1]
    · by_cases h2 : i = j
      · simp [Memory.write, Memory.read, h2]
      · simp [Memory.write, Memory.read, h1, h2, ih]

/-- A write leaves every other slot as it was. -/
theorem memory_read_write_other (m : Memory) {i j : Nat} (r : Reading) (h : j ≠ i) :
    Memory.read (Memory.write m i r) j = Memory.read m j := by
  induction m with
  | nil => simp [Memory.write, Memory.read, h]
  | cons c rest ih =>
    obtain ⟨k, x⟩ := c
    by_cases h1 : i < k
    · simp [Memory.write, Memory.read, h1, h]
    · by_cases h2 : i = k
      · subst h2
        simp [Memory.write, Memory.read, h]
      · simp [Memory.write, Memory.read, h1, h2, ih]

/-- The canonical form is strictly rising indices. -/
theorem memory_wf_iff (m : Memory) : Memory.wf m = true ↔ (m.map Prod.fst).Pairwise (· < ·) := by
  induction m with
  | nil => simp [Memory.wf]
  | cons a rest ih =>
    cases rest with
    | nil => simp [Memory.wf]
    | cons b rest =>
      simp only [Memory.wf, Bool.and_eq_true, decide_eq_true_eq, ih, List.map_cons, List.pairwise_cons]
      constructor
      · rintro ⟨hab, hb, hr⟩
        refine ⟨?_, hb, hr⟩
        intro x hx
        rcases List.mem_cons.1 hx with rfl | hx
        · exact hab
        · exact Nat.lt_trans hab (hb x hx)
      · rintro ⟨ha, hb, hr⟩
        exact ⟨ha _ (by simp), hb, hr⟩

/-- The slots listed after a write are those listed before and the one written. -/
theorem memory_mem_write (m : Memory) (i : Nat) (r : Reading) (c : Nat × Reading)
    (h : c ∈ Memory.write m i r) : c = (i, r) ∨ c ∈ m := by
  induction m with
  | nil => simpa [Memory.write] using h
  | cons a rest ih =>
    obtain ⟨j, x⟩ := a
    by_cases h1 : i < j
    · simpa [Memory.write, h1] using h
    · by_cases h2 : i = j
      · rw [Memory.write, if_neg h1, if_pos h2] at h
        rcases List.mem_cons.1 h with h | h
        · exact .inl h
        · exact .inr (List.mem_cons_of_mem _ h)
      · rw [Memory.write, if_neg h1, if_neg h2] at h
        rcases List.mem_cons.1 h with h | h
        · exact .inr (by simp [h])
        · exact (ih h).imp id (List.mem_cons_of_mem _)

/-- A write keeps the canonical form. -/
theorem memory_write_wf {m : Memory} (i : Nat) (r : Reading) (h : Memory.wf m = true) :
    Memory.wf (Memory.write m i r) = true := by
  rw [memory_wf_iff] at h ⊢
  induction m with
  | nil => simp [Memory.write]
  | cons a rest ih =>
    obtain ⟨j, x⟩ := a
    simp only [List.map_cons, List.pairwise_cons] at h
    obtain ⟨hj, hr⟩ := h
    by_cases h1 : i < j
    · simp only [Memory.write, if_pos h1, List.map_cons, List.pairwise_cons, hr, and_true]
      refine ⟨?_, hj⟩
      intro y hy
      rcases List.mem_cons.1 hy with rfl | hy
      · exact h1
      · exact Nat.lt_trans h1 (hj y hy)
    · by_cases h2 : i = j
      · subst h2
        simpa [Memory.write, hr] using hj
      · simp only [Memory.write, if_neg h1, if_neg h2, List.map_cons, List.pairwise_cons]
        refine ⟨?_, ih hr⟩
        intro y hy
        obtain ⟨c, hc, rfl⟩ := List.mem_map.1 hy
        rcases memory_mem_write rest i r c hc with rfl | hc
        · show j < i
          omega
        · exact hj _ (List.mem_map_of_mem hc)

/-- Memory lists nothing after reset, and so is in canonical form. -/
theorem reset_slots_wf (cfg : Config) : Memory.wf (State.resetWith cfg).slots = true := rfl

/-- The reset event leaves the canonical form. -/
theorem resetEvent_slots_wf (s : State) : Memory.wf (resetEvent s).slots = true := rfl

/-- Writing the first slot that is not listed extends a filling window by one. -/
theorem memory_write_append {m : Memory} {k : Nat} (r : Reading) (h : ∀ c ∈ m, c.1 < k) :
    Memory.write m k r = m ++ [(k, r)] := by
  induction m with
  | nil => rfl
  | cons a rest ih =>
    obtain ⟨j, x⟩ := a
    have hj : j < k := h (j, x) (by simp)
    have h1 : ¬ k < j := by omega
    have h2 : k ≠ j := by omega
    simp [Memory.write, h1, h2, ih (fun c hc => h c (List.mem_cons_of_mem _ hc))]

/-- Writing a listed slot of a canonical array changes no index. -/
theorem memory_write_listed {m : Memory} {i : Nat} (r : Reading) (hw : Memory.wf m = true)
    (hi : i ∈ m.map Prod.fst) : (Memory.write m i r).map Prod.fst = m.map Prod.fst := by
  rw [memory_wf_iff] at hw
  induction m with
  | nil => simp at hi
  | cons a rest ih =>
    obtain ⟨j, x⟩ := a
    simp only [List.map_cons, List.pairwise_cons] at hw
    by_cases h2 : i = j
    · subst h2
      simp [Memory.write]
    · have hr : i ∈ rest.map Prod.fst := by
        rcases List.mem_cons.1 hi with h | h
        · exact absurd h h2
        · exact h
      have h1 : ¬ i < j := by
        have := hw.1 i hr
        omega
      simp [Memory.write, h1, h2, ih hw.2 hr]

/-- A slot reads as something exactly when it is listed. -/
theorem memory_read_isSome (m : Memory) (i : Nat) :
    (Memory.read m i).isSome = true ↔ i ∈ m.map Prod.fst := by
  induction m with
  | nil => simp
  | cons a rest ih =>
    obtain ⟨j, x⟩ := a
    by_cases h : i = j
    · simp [Memory.read, h]
    · simp [Memory.read, ih, h]

/-- What a slot reads as is listed. -/
theorem memory_mem_of_read {m : Memory} {i : Nat} {r : Reading} (h : Memory.read m i = some r) : (i, r) ∈ m := by
  induction m with
  | nil => simp at h
  | cons a rest ih =>
    obtain ⟨j, x⟩ := a
    by_cases hj : i = j
    · simp [Memory.read, hj] at h
      simp [hj, h]
    · simp only [Memory.read, if_neg hj] at h
      exact List.mem_cons_of_mem _ (ih h)

end Sys2Proof.Machine
end

