-- ==== Sys2Proof/Laws/Ops.lean ====
section
/-! SUPPORT. One lemma per shared operation that says everything it can do, and the inversion of each meaning. -/

namespace Sys2Proof.Machine

/-- A slot read answers exactly the listed reading of an existing slot. -/
theorem slotRead_ok_iff (s : State) (i : Nat) (r : Reading) :
    slotRead s i = .ok r ↔ i < s.cfg.n ∧ Memory.read s.slots i = some r := by
  unfold slotRead
  by_cases hi : i < s.cfg.n
  · cases hr : Memory.read s.slots i <;> simp [hi]
  · simp [hi]

/-- A slot write succeeds exactly on an existing slot, and changes the slot array alone. -/
theorem slotWrite_ok_iff (s s' : State) (i : Nat) (r : Reading) :
    slotWrite s i r = .ok s' ↔ i < s.cfg.n ∧ s' = s.withSlots (Memory.write s.slots i r) := by
  unfold slotWrite
  by_cases hi : i < s.cfg.n
  · simp [hi, eq_comm]
  · simp [hi]

/-- Reading a list of slots answers one reading per slot, in order. -/
theorem slotReadAll_ok_iff (s : State) (is : List Nat) (rs : List Reading) :
    slotReadAll s is = .ok rs ↔ List.Forall₂ (fun i r => slotRead s i = .ok r) is rs := by
  induction is generalizing rs with
  | nil =>
    rw [List.forall₂_nil_left_iff]
    simp [slotReadAll, eq_comm]
  | cons i rest ih =>
    rw [List.forall₂_cons_left_iff]
    simp only [slotReadAll]
    cases hr : slotRead s i with
    | error f => simp
    | ok r =>
      cases hrest : slotReadAll s rest with
      | error f => simp [← ih, hrest]
      | ok rs' =>
        simp only [Except.ok.injEq, ← ih, hrest]
        constructor
        · rintro rfl
          exact ⟨r, rs', rfl, rfl, rfl⟩
        · rintro ⟨_, _, rfl, rfl, rfl⟩
          rfl

/-- The window reads as `N` readings, slot `i` at place `i`. -/
theorem windowReadings_ok_iff (s : State) (rs : List Reading) :
    windowReadings s = .ok rs ↔
      rs.length = s.cfg.n ∧ ∀ (i : Nat) (h : i < rs.length), slotRead s i = .ok rs[i] := by
  rw [windowReadings, slotReadAll_ok_iff, List.forall₂_iff_get]
  constructor
  · rintro ⟨hl, h⟩
    rw [List.length_range] at hl
    refine ⟨hl.symm, fun i hi => ?_⟩
    simpa using h i (by simpa [hl] using hi) hi
  · rintro ⟨hl, h⟩
    refine ⟨by simp [hl], fun i h1 h2 => ?_⟩
    simpa using h i h2

@[simp] theorem advance_cfg (s : State) : (advance s).cfg = s.cfg := rfl
@[simp] theorem advance_slots (s : State) : (advance s).slots = s.slots := rfl
@[simp] theorem advance_nextSlot (s : State) : (advance s).nextSlot = nextIndex s.cfg.n s.nextSlot := rfl
@[simp] theorem advance_filledCount (s : State) : (advance s).filledCount = nextCount s.cfg.n s.filledCount := rfl
@[simp] theorem advance_host (s : State) : (advance s).host = s.host := rfl
@[simp] theorem advance_out (s : State) : (advance s).out = s.out := rfl

@[simp] theorem returning_cfg (s : State) (r : Result) : (returning s r).cfg = s.cfg := rfl
@[simp] theorem returning_slots (s : State) (r : Result) : (returning s r).slots = s.slots := rfl
@[simp] theorem returning_nextSlot (s : State) (r : Result) : (returning s r).nextSlot = s.nextSlot := rfl
@[simp] theorem returning_filledCount (s : State) (r : Result) : (returning s r).filledCount = s.filledCount := rfl
@[simp] theorem returning_host (s : State) (r : Result) : (returning s r).host = s.host := rfl
@[simp] theorem returning_out (s : State) (r : Result) : (returning s r).out = some r := rfl

@[simp] theorem resetEvent_cfg (s : State) : (resetEvent s).cfg = s.cfg := rfl
@[simp] theorem resetEvent_slots (s : State) : (resetEvent s).slots = [] := rfl
@[simp] theorem resetEvent_nextSlot (s : State) : (resetEvent s).nextSlot = 0 := rfl
@[simp] theorem resetEvent_filledCount (s : State) : (resetEvent s).filledCount = 0 := rfl
@[simp] theorem resetEvent_host (s : State) : (resetEvent s).host = s.host := rfl
@[simp] theorem resetEvent_out (s : State) : (resetEvent s).out = none := rfl

@[simp] theorem idle_cfg (s : State) : (idle s).cfg = s.cfg := rfl
@[simp] theorem idle_slots (s : State) : (idle s).slots = s.slots := rfl
@[simp] theorem idle_nextSlot (s : State) : (idle s).nextSlot = s.nextSlot := rfl
@[simp] theorem idle_filledCount (s : State) : (idle s).filledCount = s.filledCount := rfl
@[simp] theorem idle_host (s : State) : (idle s).host = s.host := rfl
@[simp] theorem idle_out (s : State) : (idle s).out = none := rfl

/-- The circular index in compare-and-clear form (40_sample_averager.md R67). -/
theorem nextIndex_eq {n i : Nat} (h : i < n) : nextIndex n i = if i + 1 = n then 0 else i + 1 := by
  unfold nextIndex
  split
  · rename_i h1
    simp [h1]
  · exact Nat.mod_eq_of_lt (by omega)

theorem nextIndex_lt {n : Nat} (hn : 1 ≤ n) (i : Nat) : nextIndex n i < n := Nat.mod_lt _ (by omega)

/-- The saturating counter by cases (40_sample_averager.md R68). -/
theorem nextCount_eq (n k : Nat) : nextCount n k = if k < n then k + 1 else n := by
  unfold nextCount
  split <;> omega

/-- A push's result: an average of the whole window when it is full, else none. -/
theorem pushResult_ok_iff (s : State) (r : Result) :
    pushResult s = .ok r ↔
      (ready s = true ∧ ∃ rs, windowReadings s = .ok rs ∧ r = .average (some (averageOf s.cfg rs))) ∨
      (ready s = false ∧ r = .average none) := by
  unfold pushResult
  cases hr : ready s
  · simp [eq_comm]
  · cases hw : windowReadings s <;> simp [eq_comm]

/-- A valid reading is finite and of the instance's `Sample`. -/
theorem readingValid_iff (f : SampleFormat) (r : Reading) :
    readingValid f r = true ↔ readingFinite r = true ∧ readingOfFormat f r = true := by
  simp [readingValid]

/-- A push of a valid reading writes its slot, then returns its result; what stops it is a slot fault alone. -/
theorem execPush_of_valid {t h : Sample} {s : State} (hv : readingValid s.cfg.sample (pushReading t h) = true) :
    execPush t h s =
      match slotWrite s s.nextSlot (pushReading t h) with
      | .error f => .fault f
      | .ok written =>
        match pushResult (advance written) with
        | .error f => .fault f
        | .ok r => .next (returning (advance written) r) := by
  obtain ⟨hf, ho⟩ := (readingValid_iff _ _).1 hv
  exact (if_pos hf).trans (if_pos ho)

/-- A push of a reading that is not valid is refused, by one of two names. -/
theorem execPush_of_not_valid {t h : Sample} {s : State}
    (hv : readingValid s.cfg.sample (pushReading t h) = false) :
    execPush t h s = .refused (if readingFinite (pushReading t h) then .notASample else .nonFiniteReading) := by
  unfold execPush readingValid at *
  cases hf : readingFinite (pushReading t h) <;> simp_all

/-- Everything a push that completes has done. -/
theorem execPush_next_iff (t h : Sample) (s s' : State) :
    execPush t h s = .next s' ↔
      readingValid s.cfg.sample (pushReading t h) = true ∧ s.nextSlot < s.cfg.n ∧
      ∃ r, pushResult (advance (s.withSlots (Memory.write s.slots s.nextSlot (pushReading t h)))) = .ok r ∧
        s' = returning (advance (s.withSlots (Memory.write s.slots s.nextSlot (pushReading t h)))) r := by
  cases hv : readingValid s.cfg.sample (pushReading t h)
  · simp [execPush_of_not_valid hv]
  · rw [execPush_of_valid hv]
    simp only [true_and]
    unfold slotWrite
    by_cases hi : s.nextSlot < s.cfg.n
    · simp only [hi, if_true, true_and]
      cases hp : pushResult (advance (s.withSlots (Memory.write s.slots s.nextSlot (pushReading t h))))
      · simp
      · simp [eq_comm]
    · simp [hi]

/-- Everything an `ENCODE` that completes has done. -/
theorem execEncode_next_iff (payloadLen : BitVec 16) (payload : List Byte) (dest : Dest) (s s' : State) :
    execEncode payloadLen payload dest s = .next s' ↔
      (s.cfg.hasEncoder = true ∧ payloadAgrees payloadLen payload = true ∧
        s' = returning s (encodeResult s.cfg.txOptions payload dest)) ∨
      (s.cfg.hasEncoder = false ∧ s' = returning s (.err .illegalCmd)) := by
  unfold execEncode
  cases s.cfg.hasEncoder <;> cases payloadAgrees payloadLen payload <;> simp [eq_comm]

theorem execNop_next_iff (s s' : State) : execNop s = .next s' ↔ s' = returning s .ok := by
  simp [execNop, eq_comm]

theorem execReserved_next_iff (s s' : State) : execReserved s = .next s' ↔ s' = returning s (.err .illegalCmd) := by
  simp [execReserved, eq_comm]

@[simp] theorem exec_nop (s : State) : exec .nop s = execNop s := rfl
@[simp] theorem exec_push (t h : Sample) (s : State) : exec (.push t h) s = execPush t h s := rfl
@[simp] theorem exec_encode (payloadLen : BitVec 16) (payload : List Byte) (dest : Dest) (s : State) :
    exec (.encode payloadLen payload dest) s = execEncode payloadLen payload dest s := rfl
@[simp] theorem exec_reserved (s : State) : exec .reserved s = execReserved s := rfl

theorem step_idle {s : State} (h : s.host = []) : step s = .next (idle s) := by
  simp [step, h]

theorem step_reset {s : State} {rest : List HostEvent} (h : s.host = .reset :: rest) :
    step s = .next (resetEvent (s.withHost rest)) := by
  simp [step, h]

theorem step_command {s : State} {c : Command} {rest : List HostEvent} (h : s.host = .command c :: rest) :
    step s = exec (decode c) (s.withHost rest) := by
  simp [step, h]

end Sys2Proof.Machine
end

