-- ==== Sys2Proof/Laws/PerInstr.lean ====
section
/-! SUPPORT. Statements about every operation as syntax, one lemma per constructor. -/

namespace Sys2Proof.Laws.CarriesItsCode

/-- The command that presents an operation carries that operation's own code and no operand but its own: with its
operand lines cleared it is the bare command of the code. -/
def Statement (i : Instr) : Prop :=
  (encode i).cmd = cmdCode i ∧
  { encode i with t := .fin 0, h := .fin 0, payloadLen := 0#16, payload := [], dest := Vector.replicate 8 0#8 } =
    bareCommand (cmdCode i)

theorem nop : Statement .nop := ⟨rfl, rfl⟩

theorem push (t h : Sample) : Statement (.push t h) := ⟨rfl, rfl⟩

theorem encode (payloadLen : BitVec 16) (payload : List Byte) (dest : Dest) :
    Statement (.encode payloadLen payload dest) := ⟨rfl, rfl⟩

theorem reserved : Statement .reserved := ⟨rfl, rfl⟩

end Sys2Proof.Laws.CarriesItsCode
end

