-- ==== Sys2Proof/Laws/Window.lean ====
section
/-! SUPPORT. What the window's invariant gives the operations that read slots, and on what a push's result depends. -/

namespace Sys2Proof.Machine

/-- A window in order has its slot array in canonical form. -/
theorem windowOk_slots_wf {s : State} (hw : WindowOk s) : Memory.wf s.slots = true := by
  rw [memory_wf_iff, hw.1]
  exact List.pairwise_lt_range

/-- In a window in order every slot below `filled_count` holds a reading. -/
theorem windowOk_read {s : State} (hw : WindowOk s) {i : Nat} (hi : i < s.filledCount) :
    ∃ r, Memory.read s.slots i = some r := by
  have h : (Memory.read s.slots i).isSome = true := by
    rw [memory_read_isSome, hw.1]
    simpa using hi
  exact Option.isSome_iff_exists.1 h

/-- Reading slots that exist and are written never faults. -/
theorem slotReadAll_ok_of {s : State} (is : List Nat)
    (h : ∀ i ∈ is, i < s.cfg.n ∧ ∃ r, Memory.read s.slots i = some r) : ∃ rs, slotReadAll s is = .ok rs := by
  induction is with
  | nil => exact ⟨[], rfl⟩
  | cons i rest ih =>
    obtain ⟨rs, hrs⟩ := ih (fun j hj => h j (List.mem_cons_of_mem _ hj))
    obtain ⟨hi, r, hr⟩ := h i (by simp)
    have hread : slotRead s i = .ok r := (slotRead_ok_iff _ _ _).2 ⟨hi, hr⟩
    exact ⟨r :: rs, by simp [slotReadAll, hread, hrs]⟩

/-- A slot read depends on the configuration and the slot array alone. -/
theorem slotRead_congr {a b : State} (hc : a.cfg = b.cfg) (hs : a.slots = b.slots) (i : Nat) :
    slotRead a i = slotRead b i := by
  simp [slotRead, hc, hs]

/-- A push's result depends on the configuration, the slot array and the counter alone. -/
theorem pushResult_congr {a b : State} (hc : a.cfg = b.cfg) (hs : a.slots = b.slots)
    (hf : a.filledCount = b.filledCount) : pushResult a = pushResult b := by
  have hall : ∀ is, slotReadAll a is = slotReadAll b is := by
    intro is
    induction is with
    | nil => rfl
    | cons i rest ih => simp [slotReadAll, slotRead_congr hc hs i, ih]
  simp [pushResult, ready, windowReadings, hc, hf, hall]

/-- No operation changes the configuration or the events still pending. -/
theorem exec_keeps_cfg_host {i : Instr} {s s' : State} (h : exec i s = .next s') :
    s'.cfg = s.cfg ∧ s'.host = s.host := by
  cases i with
  | nop =>
    rw [exec_nop, execNop_next_iff] at h
    simp [h]
  | push t hum =>
    obtain ⟨-, -, r, -, rfl⟩ := (execPush_next_iff _ _ _ _).1 h
    simp
  | encode payloadLen payload dest =>
    rcases (execEncode_next_iff _ _ _ _ _).1 h with ⟨-, -, rfl⟩ | ⟨-, rfl⟩ <;> simp
  | reserved =>
    rw [exec_reserved, execReserved_next_iff] at h
    simp [h]

end Sys2Proof.Machine
end

