-- ==== Sys2Proof/Tests/Slice0.lean ====
section
/-! SUPPORT. Small tests whose expected results are the spec's (95_test_vectors.md), and a witness for the hypotheses
of each statement. -/

namespace Sys2Proof.Tests

open Sys2Proof Sys2Proof.Machine

/-! ### Helpers -/

/-- An instance with the reference mean in binary32. -/
def refCfg (n : Nat) (hn : 1 ≤ n) (opts : Byte) : Config :=
  { n := n, n_pos := hn, hasEncoder := true, txOptions := opts, sample := .binary binary32, mean := .reference,
    mean_fits := by decide }

/-- `N = 2`, the encoder, options 00, the mean left open. -/
def cfg2 : Config :=
  { n := 2, n_pos := by decide, hasEncoder := true, txOptions := 0x00#8, sample := .unspecified, mean := .unspecified,
    mean_fits := by decide }

/-- The instance without the encoder. -/
def cfgNoEncoder : Config := { cfg2 with hasEncoder := false }

def reading (t h : Rat) : Reading := { t := .fin t, h := .fin h }

/-- A window state: slots 0, 1, … as given. -/
def window (cfg : Config) (slots : List Reading) (next : Nat) : State :=
  { State.resetWith cfg with
    slots := (List.range slots.length).zip slots, nextSlot := next, filledCount := slots.length }

/-- One reading in a window of two. -/
def filling : State := window cfg2 [reading 20 50] 1

/-- A full window of two. -/
def full : State := window cfg2 [reading 20 50, reading 22 52] 0

/-- The next state of an outcome. -/
def nextOf : Host.Outcome State Fault Refusal → Option State
  | .next s => some s
  | .fault _ => none
  | .refused _ => none

/-- The result a step returned. -/
def resultOf (o : Host.Outcome State Fault Refusal) : Option Result := (nextOf o).bind State.out

/-- `DEST` of 95_test_vectors.md. -/
def destX : Dest := #v[0x00, 0x13, 0xA2, 0x00, 0x41, 0x4F, 0xED, 0xDD]

def zeroDest : Dest := Vector.replicate 8 0x00#8

/-- A state with one event pending. -/
def pending (s : State) (e : HostEvent) : State := { s with host := [e] }

/-! ### Form and decoding -/

theorem test_illFormed_payloadLen : wellFormed (.encode 2#16 [0x41#8] zeroDest) = false := by decide

theorem test_wellFormed_payloadLen : wellFormed (.encode 1#16 [0x41#8] zeroDest) = true := by decide

/-- `NOP`: `cmd = 00`. -/
theorem test_decode_nop : decode (bareCommand 0b00#2) = .nop := by decide

/-- `PUSH 20.0, 50.0`: `cmd = 01`, operands `t`, `h`. -/
theorem test_decode_push :
    decode { bareCommand 0b01#2 with t := .fin 20, h := .fin 50 } = .push (.fin 20) (.fin 50) := by decide

/-- `ENCODE [41], DEST`: `cmd = 10`, operands `payload_len`, `payload`, `dest`. -/
theorem test_decode_encode :
    decode { bareCommand 0b10#2 with payloadLen := 1#16, payload := [0x41#8], dest := destX } =
      .encode 1#16 [0x41#8] destX := by decide

/-- The reserved code: `cmd = 11`. -/
theorem test_decode_reserved : decode (bareCommand 0b11#2) = .reserved := by decide

theorem test_tableWord_push : decodeTableWord 8 1 = some (.push (.fin 0) (.fin 0)) := by decide

/-- The first step after reset runs the word that is presented. -/
theorem test_fetchWord_reserved :
    resultOf (step (State.reset.withFetchWord 8 3)) = some (.err .illegalCmd) := by decide

/-! ### PUSH (95_test_vectors.md parts A and B) -/

/-- V1 step 1: `None`, `next_slot = 1`. -/
theorem test_push_V1_first :
    (nextOf (exec (.push (.fin 20) (.fin 50)) (State.resetWith (refCfg 2 (by decide) 0)))).map
      (fun s => (s.out, s.nextSlot, s.slots)) = some (some (.average none), 1, [(0, reading 20 50)]) := by
  decide +kernel

/-- V9: the third push overwrites the oldest and averages slots (24, 22) and (54, 52). -/
theorem test_push_V9 :
    (nextOf (exec (.push (.fin 24) (.fin 54)) (window (refCfg 2 (by decide) 0) [reading 20 50, reading 22 52] 0))).map
      (fun s => (s.out, s.nextSlot, s.slots)) =
      some (some (.average (some { t := .fin 23, h := .fin 53 })), 1, [(0, reading 24 54), (1, reading 22 52)]) := by
  decide +kernel

/-- V14: five equal values whose mean is one place below them; V15: three values in two slot orders; V16: the sum
overflows; 90_conflicts.md C1: five times 0.11 in binary64 does not give 0.11. -/
theorem test_referenceMean :
    referenceMean binary32 (List.replicate 5 (ofBinary32 0x3CF5C28F#32)) = ofBinary32 0x3CF5C28E#32 ∧
    referenceMean binary32 [.fin 100000000, .fin 1, .fin (-100000000)] = .fin 0 ∧
    referenceMean binary32 [.fin (-100000000), .fin 100000000, .fin 1] = ofBinary32 0x3EAAAAAB#32 ∧
    referenceMean binary32 [ofBinary32 0x7F7FFFFF#32, ofBinary32 0x7F7FFFFF#32] = .posInf ∧
    referenceMean binary64 (List.replicate 5 (roundTo binary64 (mkRat 11 100))) =
      roundTo binary64 (mkRat 11000000000000001 100000000000000000) ∧
    roundTo binary64 (mkRat 11 100) ≠ roundTo binary64 (mkRat 11000000000000001 100000000000000000) := by
  decide +kernel

/-! ### ENCODE (95_test_vectors.md part C) -/

/-- V2, `TX_OPTIONS = 00`. -/
theorem test_encode_V2 :
    resultOf (exec (.encode 15#16 [0x54, 0x3A, 0x32, 0x31, 0x2E, 0x30, 0x30, 0x20, 0x48, 0x3A, 0x35, 0x31, 0x2E, 0x30, 0x30]
      destX) full) =
    some (.frame [0x7E, 0x00, 0x1A, 0x00, 0x01, 0x00, 0x13, 0xA2, 0x00, 0x41, 0x4F, 0xED, 0xDD, 0x00, 0x54, 0x3A, 0x32,
      0x31, 0x2E, 0x30, 0x30, 0x20, 0x48, 0x3A, 0x35, 0x31, 0x2E, 0x30, 0x30, 0xDA]) := by
  decide

/-- V22, `TX_OPTIONS = 01`: the content sum is 0 modulo 256 and the checksum is FF. -/
theorem test_encode_V22 :
    resultOf (exec (.encode 1#16 [0xFE] zeroDest) (State.resetWith (refCfg 2 (by decide) 0x01))) =
    some (.frame [0x7E, 0x00, 0x0C, 0x00, 0x01, 0x00, 0x00, 0x00, 0x00, 0x00, 0x00, 0x00, 0x00, 0x01, 0xFE, 0xFF]) := by
  decide

/-- R97 on V26: the serial emission of a payload that looks like framing. -/
theorem test_serial_V26 :
    serialEmit 0x01#8 [0x7E, 0x00, 0xFF] destX =
    some [0x7E, 0x00, 0x0E, 0x00, 0x01, 0x00, 0x13, 0xA2, 0x00, 0x41, 0x4F, 0xED, 0xDD, 0x01, 0x7E, 0x00, 0xFF, 0x71] := by
  decide

/-! ### NOP, the reserved command, reset (V31, V32, P4) -/

theorem test_nop_V31 : nextOf (exec .nop filling) = some { filling with out := some .ok } := by decide

/-- V32: the reserved code, and `ENCODE` without the encoder. -/
theorem test_illegal_V32 :
    nextOf (exec .reserved full) = some { full with out := some (.err .illegalCmd) } ∧
    resultOf (exec (.encode 0#16 [] zeroDest) (State.resetWith cfgNoEncoder)) = some (.err .illegalCmd) := by decide

/-- P4 step 3: reset in mid-run. -/
theorem test_reset_P4 : nextOf (step (pending full .reset)) = some (State.resetWith cfg2) := by decide

/-! ### Witnesses: for each statement with hypotheses, a state and operands that meet them -/

theorem witness_StepServesTheOldestEvent :
    full.host = [] ∧ (pending full .reset).host = .reset :: [] ∧
    (pending full (.command (bareCommand 0b00#2))).host = .command (bareCommand 0b00#2) :: [] := by decide

theorem witness_PresentedWordRunsNext : decodeTableWord 8 0 = some .nop ∧ decodeTableWord 8 3 = some .reserved := by decide

theorem witness_EncodeWithoutEncoder : (State.resetWith cfgNoEncoder).cfg.hasEncoder = false := by decide

/-- The two sides of the bound, 240 and 241 bytes, for `EncodeReturnsTheFrame`, `OversizePayloadIsACheckedError` and
`SerialEmitterEmitsTheFrame`. -/
theorem witness_payloadBound :
    full.cfg.hasEncoder = true ∧
    (List.replicate 240 0x41#8).length = (240#16).toNat ∧ (List.replicate 240 0x41#8).length + 15 ≤ 255 ∧
    (List.replicate 241 0x41#8).length = (241#16).toNat ∧ (List.replicate 241 0x41#8).length + 15 > 255 ∧
    240 < (List.replicate 241 0x41#8).length := by
  simp only [List.length_replicate]
  decide

theorem witness_EncodeRefusesAWrongLength :
    full.cfg.hasEncoder = true ∧ ([0x41#8] : List Byte).length ≠ (2#16).toNat := by decide

theorem full_returns_a_frame (l : BitVec 16) (p : List Byte) (d : Dest) (h : p.length = l.toNat)
    (hp : p.length ≤ 240) : ∃ s' f, exec (.encode l p d) full = .next s' ∧ s'.out = some (.frame f) :=
  ⟨_, _, (execEncode_next_iff _ _ _ _ _).2 (.inl ⟨rfl, by simp [payloadAgrees, h], rfl⟩), by
    rw [returning_out, encodeResult_eq, if_pos hp]⟩

/-- A returned frame, for every statement about one, at both ends of the range of `P`. -/
theorem witness_returnedFrame :
    (∃ s' f, exec (.encode 0#16 [] destX) full = .next s' ∧ s'.out = some (.frame f)) ∧
    ∃ s' f, exec (.encode 240#16 (List.replicate 240 0x41#8) destX) full = .next s' ∧ s'.out = some (.frame f) :=
  ⟨full_returns_a_frame _ _ _ rfl (by decide), full_returns_a_frame _ _ _ List.length_replicate
    (Nat.le_of_eq List.length_replicate)⟩

theorem witness_FrameDeterminesItsOperands :
    ∃ t₁ t₂ f, exec (.encode 1#16 [0x41#8] destX) full = .next t₁ ∧ exec (.encode 1#16 [0x41#8] destX) filling = .next t₂ ∧
      t₁.out = some (.frame f) ∧ t₂.out = some (.frame f) := ⟨_, _, _, rfl, rfl, rfl, rfl⟩

theorem witness_EncodeIsDeterministic :
    full.cfg.hasEncoder = true ∧ filling.cfg.hasEncoder = true ∧ full.cfg.txOptions = filling.cfg.txOptions ∧
    ([0x41#8] : List Byte).length = (1#16).toNat := by decide

/-- A push that fills the window, one that leaves it filling, and one in a full window. -/
theorem witness_push :
    (WindowOk filling ∧ min (filling.filledCount + 1) filling.cfg.n = filling.cfg.n) ∧
    (WindowOk (State.resetWith cfg2) ∧ min ((State.resetWith cfg2).filledCount + 1) cfg2.n ≠ cfg2.n) ∧
    WindowOk full ∧ readingValid cfg2.sample (reading 24 54) = true := by decide

theorem witness_push_completes :
    (∃ s', exec (.push (.fin 24) (.fin 54)) full = .next s') ∧
    ∃ s', exec (.push .negZero (.fin 54)) (State.resetWith cfg2) = .next s' := ⟨⟨_, rfl⟩, _, rfl⟩

theorem witness_PushRefusesANonFiniteReading :
    isFinite .nan = false ∧ isFinite .posInf = false ∧ isFinite .negInf = false := by decide

theorem witness_PushOutsideTheWindowFaults :
    readingValid (window cfg2 [] 2).cfg.sample (reading 1 2) = true ∧ (window cfg2 [] 2).cfg.n ≤ (window cfg2 [] 2).nextSlot := by decide

theorem witness_AveragingAnUnwrittenSlotFaults :
    let s : State := { window cfg2 [] 1 with filledCount := 1 }
    readingValid s.cfg.sample (reading 1 2) = true ∧ s.nextSlot < s.cfg.n ∧ min (s.filledCount + 1) s.cfg.n = s.cfg.n ∧
    0 < s.cfg.n ∧ 0 ≠ s.nextSlot ∧ Memory.read s.slots 0 = none := by decide

/-- The last slot, from which `next_slot` wraps, and the other operations. -/
theorem witness_OnlyPushMovesNextSlot :
    (∃ s', exec (.push (.fin 22) (.fin 52)) filling = .next s' ∧ filling.nextSlot + 1 = filling.cfg.n) ∧
    (∃ s', exec .nop filling = .next s') ∧ (∃ s', exec (.encode 0#16 [] destX) filling = .next s') ∧
    ∃ s', exec .reserved filling = .next s' := ⟨⟨_, rfl, rfl⟩, ⟨_, rfl⟩, ⟨_, rfl⟩, _, rfl⟩

/-- Steps under the invariant: idle, reset, a push, another operation. -/
theorem witness_step :
    (WindowOk full ∧ ∃ s', step full = .next s') ∧
    (WindowOk (pending full .reset) ∧ ∃ s', step (pending full .reset) = .next s') ∧
    (WindowOk (pending full (pushEvent (reading 24 54))) ∧
      ∃ s', step (pending full (pushEvent (reading 24 54))) = .next s') ∧
    (WindowOk (pending full (.command (bareCommand 0b00#2))) ∧
      ∃ s', step (pending full (.command (bareCommand 0b00#2))) = .next s') :=
  ⟨⟨by decide, _, rfl⟩, ⟨by decide, _, rfl⟩, ⟨by decide, _, rfl⟩, by decide, _, rfl⟩

/-- A history of two readings held by the full window. -/
theorem witness_Represents : Represents [reading 20 50, reading 22 52] full := by
  refine ⟨rfl, rfl, ?_⟩
  intro p hp _
  match p, hp with
  | 0, _ => rfl
  | 1, _ => rfl

theorem witness_ReadyForTheWholeLifetime :
    (WindowOk (pending full (pushEvent (reading 24 54))) ∧ ready (pending full (pushEvent (reading 24 54))) = true ∧
      (∀ e ∈ (pending full (pushEvent (reading 24 54))).host, e ≠ .reset) ∧
      ∃ s', Host.Core.run core 2 (pending full (pushEvent (reading 24 54))) = .next s') ∧
    Represents [reading 20 50, reading 22 52] full ∧ full.cfg.n ≤ [reading 20 50, reading 22 52].length ∧
    ∃ s', exec (.push (.fin 24) (.fin 54)) full = .next s' :=
  ⟨⟨by decide, by decide, by decide, _, rfl⟩, witness_Represents, by decide, _, rfl⟩

/-- `N = 1` and `N = 2`, the boundary where `IDX_W` is held at 1, with the least widths. -/
theorem witness_CounterWidthsSuffice :
    (∀ i, i < 1 → i < 2 ^ 1) ∧ (∀ k, k ≤ 1 → k < 2 ^ 1) ∧ (∀ i, i < 2 → i < 2 ^ 1) ∧ ∀ k, k ≤ 2 → k < 2 ^ 2 := by decide

theorem witness_ComponentsAreNeverMixed :
    let s₁ := window cfg2 [reading 20 50] 1
    let s₂ := window cfg2 [reading 20 60] 1
    (∃ t₁ t₂ a₁ a₂, exec (.push (.fin 22) (.fin 52)) s₁ = .next t₁ ∧ exec (.push (.fin 22) (.fin 62)) s₂ = .next t₂ ∧
      t₁.out = some (.average (some a₁)) ∧ t₂.out = some (.average (some a₂))) ∧
    s₁.cfg = s₂.cfg ∧ s₁.nextSlot = s₂.nextSlot ∧
    ∀ i, (Memory.read s₁.slots i).map Reading.t = (Memory.read s₂.slots i).map Reading.t := by
  refine ⟨⟨_, _, _, _, rfl, rfl, rfl, rfl⟩, rfl, rfl, fun i => ?_⟩
  show (if i = 0 then some (reading 20 50) else none).map Reading.t =
    (if i = 0 then some (reading 20 60) else none).map Reading.t
  split <;> rfl

/-- The same with the components exchanged: equal humidities, other temperatures. -/
theorem witness_ComponentsAreNeverMixed_humidity :
    let s₁ := window cfg2 [reading 20 50] 1
    let s₂ := window cfg2 [reading 21 50] 1
    (∃ t₁ t₂ a₁ a₂, exec (.push (.fin 22) (.fin 52)) s₁ = .next t₁ ∧ exec (.push (.fin 23) (.fin 52)) s₂ = .next t₂ ∧
      t₁.out = some (.average (some a₁)) ∧ t₂.out = some (.average (some a₂))) ∧
    s₁.cfg = s₂.cfg ∧ s₁.nextSlot = s₂.nextSlot ∧
    ∀ i, (Memory.read s₁.slots i).map Reading.h = (Memory.read s₂.slots i).map Reading.h := by
  refine ⟨⟨_, _, _, _, rfl, rfl, rfl, rfl⟩, rfl, rfl, fun i => ?_⟩
  show (if i = 0 then some (reading 20 50) else none).map Reading.h =
    (if i = 0 then some (reading 21 50) else none).map Reading.h
  split <;> rfl

theorem witness_ResetEventClearsOnlyTheWindow : (pending full .reset).host = .reset :: [] := by decide

/-- A dutiful run of every kind of event. -/
theorem witness_EveryDutifulRunCompletes :
    let s : State := { filling with host := [pushEvent (reading 22 52), .reset, .command (bareCommand 0b10#2)] }
    WindowOk s ∧ ∀ e ∈ s.host, dutyMet s.cfg e = true := by decide

theorem witness_OtherOperationsLeaveTheWindow :
    (∀ t h, Instr.nop ≠ .push t h) ∧ ∃ s', exec .nop full = .next s' := by
  exact ⟨fun _ _ => by simp, _, rfl⟩

theorem witness_AnErrorChangesNothing :
    ∃ s', exec .reserved full = .next s' ∧ s'.out = some (.err .illegalCmd) := ⟨_, rfl, rfl⟩

theorem witness_PushExtendsTheHistory :
    Represents [reading 20 50, reading 22 52] full ∧ ∃ s', exec (.push (.fin 24) (.fin 54)) full = .next s' :=
  ⟨witness_Represents, _, rfl⟩

/-- One push (below `N`) and two (at `N`). -/
theorem witness_RingSemanticsAfterReset :
    ((∀ r ∈ [reading 20 50], readingValid full.cfg.sample r = true) ∧ [reading 20 50] ≠ []) ∧
    (∀ r ∈ [reading 20 50, reading 22 52], readingValid full.cfg.sample r = true) ∧ [reading 20 50, reading 22 52] ≠ [] := by decide

/-- The first and the last slot; and V17's numbers for `N = 5`, `k = 7`. -/
theorem witness_SlotOrderIsPushOrderRotated :
    Represents [reading 20 50, reading 22 52] full ∧ full.cfg.n ≤ [reading 20 50, reading 22 52].length ∧
    0 < full.cfg.n ∧ 1 < full.cfg.n ∧ ringIndex 5 7 4 = 4 ∧ ringIndex 5 7 1 = 6 :=
  ⟨witness_Represents, by decide, by decide, by decide, by decide, by decide⟩

theorem witness_WindowDependsOnPushesAlone :
    ∃ s', Host.Core.run core 3 { filling with
      host := List.map HostEvent.command [bareCommand 0b00#2, encode (.push (.fin 22) (.fin 52)), bareCommand 0b10#2] } = .next s' := ⟨_, rfl⟩

/-- Values of the format with and without overflow of the double, and the negative zero. -/
theorem witness_ReferenceMeanOfEqualValues :
    isValueOf binary32 (.fin 20) = true ∧ isFinite (fadd binary32 (.fin 20) (.fin 20)) = true ∧
    isValueOf binary32 (ofBinary32 0x7F7FFFFF#32) = true ∧ isValueOf binary32 (ofBinary32 0x00000001#32) = true ∧
    isValueOf binary32 .negZero = true := by
  decide +kernel

/-- One third is no value of binary32, in either field. -/
theorem witness_PushRefusesAValueOutsideTheFormat :
    isFinite (.fin (mkRat 1 3)) = true ∧ isFinite (.fin 50) = true ∧
    isSampleOf (refCfg 1 (by decide) 0).sample (.fin (mkRat 1 3)) = false := by
  decide +kernel

/-- An average of the open mean and one of the reference mean. -/
theorem witness_EveryAverageIsOfTheFormat :
    (∃ s' a, exec (.push (.fin 24) (.fin 54)) full = .next s' ∧ s'.out = some (.average (some a))) ∧
    resultOf (exec (.push (.fin 24) (.fin 54)) (State.resetWith (refCfg 1 (by decide) 0))) =
      some (.average (some { t := .fin 24, h := .fin 54 })) :=
  ⟨⟨_, _, rfl, rfl⟩, by decide +kernel⟩

theorem witness_SingleSlotReferenceReturnsItsOperand :
    WindowOk (State.resetWith (refCfg 1 (by decide) 0)) ∧ (refCfg 1 (by decide) 0).n = 1 ∧
    (refCfg 1 (by decide) 0).sample = .binary binary32 ∧ (refCfg 1 (by decide) 0).mean = .reference ∧
    readingValid (.binary binary32) (reading 24 54) = true ∧ Sample.fin 24 ≠ .negZero ∧ Sample.fin 54 ≠ .negZero := by
  decide +kernel

end Sys2Proof.Tests
end

-- ==== Proofs of the family 10_state.md ====
section
/-! SUPPORT. What a step can do, the window's invariant along a run, and the statements about the two counters. -/

namespace Sys2Proof.Machine

/-! ### Inversion of operations and steps -/

/-- An operation other than `PUSH` hands over a result and does nothing else. -/
theorem exec_next_of_not_push {i : Instr} {s s' : State} (hi : ∀ t h, i ≠ .push t h) (h : exec i s = .next s') :
    ∃ r, s' = returning s r := by
  cases i with
  | nop => exact ⟨_, (execNop_next_iff _ _).1 h⟩
  | push t hum => exact absurd rfl (hi t hum)
  | encode payloadLen payload dest =>
    rcases (execEncode_next_iff _ _ _ _ _).1 h with ⟨-, -, hs⟩ | ⟨-, hs⟩
    · exact ⟨_, hs⟩
    · exact ⟨_, hs⟩
  | reserved => exact ⟨_, (execReserved_next_iff _ _).1 h⟩

/-- A completed `PUSH` of a valid reading has written the slot at `next_slot`, advanced index and counter, and
returned some result. -/
theorem exec_push_next {t hum : Sample} {s s' : State} (h : exec (.push t hum) s = .next s') :
    readingValid s.cfg.sample (pushReading t hum) = true ∧ s.nextSlot < s.cfg.n ∧
      ∃ r, s' = returning (advance (s.withSlots (Memory.write s.slots s.nextSlot (pushReading t hum)))) r := by
  obtain ⟨hv, hlt, r, -, hs⟩ := (execPush_next_iff _ _ _ _).1 h
  exact ⟨hv, hlt, r, hs⟩

/-- A step that ends in a next state was idle, served the reset event, or performed a command. -/
theorem step_next_cases {s s' : State} (h : step s = .next s') :
    (s.host = [] ∧ s' = idle s) ∨
    (∃ rest, s.host = .reset :: rest ∧ s' = resetEvent (s.withHost rest)) ∨
    ∃ c rest, s.host = .command c :: rest ∧ exec (decode c) (s.withHost rest) = .next s' := by
  match hh : s.host with
  | [] =>
    rw [step_idle hh, Host.Outcome.next.injEq] at h
    exact .inl ⟨rfl, h.symm⟩
  | .reset :: rest =>
    rw [step_reset hh, Host.Outcome.next.injEq] at h
    exact .inr (.inl ⟨rest, rfl, h.symm⟩)
  | .command c :: rest =>
    rw [step_command hh] at h
    exact .inr (.inr ⟨c, rest, rfl, h⟩)

/-- A run of `k + 1` steps that ends in a next state is a step and a run of `k`. -/
theorem run_succ_next {M : Host.Core} {k : Nat} {s s' : M.State} (h : M.run (k + 1) s = .next s') :
    ∃ mid, M.step s = .next mid ∧ M.run k mid = .next s' := by
  unfold Host.Core.run at h
  split at h
  · rename_i mid hmid
    exact ⟨mid, hmid, h⟩
  · cases h
  · cases h

/-- What every step keeps, every run keeps. -/
theorem run_keeps {P : State → Prop} (hstep : ∀ s s', P s → step s = .next s' → P s') (k : Nat) {s s' : State}
    (hs : P s) (h : Host.Core.run core k s = .next s') : P s' := by
  induction k generalizing s with
  | zero =>
    obtain rfl : s = s' := Host.Outcome.next.inj h
    exact hs
  | succ k ih =>
    obtain ⟨mid, hmid, hrest⟩ := run_succ_next h
    exact ih (hstep _ _ hs hmid) hrest

/-! ### The invariant of the window -/

/-- A write at `next_slot` lists exactly the slots below the counter's next value: in a filling window it appends one,
in a full one it overwrites a listed one. -/
theorem windowOk_write_indices {s : State} (hw : WindowOk s) (r : Reading) :
    (Memory.write s.slots s.nextSlot r).map Prod.fst = List.range (nextCount s.cfg.n s.filledCount) := by
  have hwf := windowOk_slots_wf hw
  obtain ⟨hidx, hle, hlt, hfill, -⟩ := hw
  rw [nextCount_eq]
  split
  · rename_i hroom
    have hbelow : ∀ c ∈ s.slots, c.1 < s.filledCount := fun c hc =>
      List.mem_range.1 (hidx ▸ List.mem_map_of_mem hc)
    rw [hfill hroom, memory_write_append r hbelow, List.map_append, hidx, List.range_succ]
    rfl
  · have hfull : s.filledCount = s.cfg.n := by omega
    rw [memory_write_listed r hwf (by rw [hidx, hfull]; exact List.mem_range.2 hlt), hidx, hfull]

/-- Storing a valid reading and advancing keeps the invariant (40_sample_averager.md R65). -/
theorem windowOk_write_advance {s : State} (hw : WindowOk s) {r : Reading}
    (hv : readingValid s.cfg.sample r = true) :
    WindowOk (advance (s.withSlots (Memory.write s.slots s.nextSlot r))) := by
  have hidx' := windowOk_write_indices hw r
  obtain ⟨-, hle, hlt, hfill, hvalid⟩ := hw
  refine ⟨hidx', Nat.min_le_right _ _, nextIndex_lt s.cfg.n_pos _, fun hroom => ?_, fun c hc => ?_⟩
  · simp only [advance_filledCount, advance_nextSlot, advance_cfg, withSlots_cfg, withSlots_filledCount,
      withSlots_nextSlot, nextCount] at hroom ⊢
    rw [hfill (by omega), nextIndex, Nat.mod_eq_of_lt (by omega)]
    omega
  · rcases memory_mem_write _ _ _ _ hc with rfl | hc
    · exact hv
    · exact hvalid c hc

/-- The invariant does not speak of the result port. -/
theorem windowOk_returning {s : State} {r : Result} : WindowOk (returning s r) ↔ WindowOk s := Iff.rfl

/-- The invariant does not speak of the pending events. -/
theorem windowOk_withHost {s : State} {es : List HostEvent} : WindowOk (s.withHost es) ↔ WindowOk s := Iff.rfl

theorem windowOk_idle {s : State} : WindowOk (idle s) ↔ WindowOk s := Iff.rfl

/-- The reset event establishes the invariant from any state. -/
theorem windowOk_resetEvent (s : State) : WindowOk (resetEvent s) := by
  have := s.cfg.n_pos
  simp [WindowOk]
  omega

/-- Every operation keeps the invariant. -/
theorem exec_keeps_windowOk {i : Instr} {s s' : State} (hw : WindowOk s) (h : exec i s = .next s') : WindowOk s' := by
  cases i with
  | push t hum =>
    obtain ⟨hv, -, r, rfl⟩ := exec_push_next h
    exact windowOk_returning.2 (windowOk_write_advance hw hv)
  | _ =>
    obtain ⟨r, rfl⟩ := exec_next_of_not_push (by simp) h
    exact windowOk_returning.2 hw

/-- Every step keeps the invariant. -/
theorem step_keeps_windowOk {s s' : State} (hw : WindowOk s) (h : step s = .next s') : WindowOk s' := by
  rcases step_next_cases h with ⟨-, rfl⟩ | ⟨rest, -, rfl⟩ | ⟨c, rest, -, hexec⟩
  · exact windowOk_idle.2 hw
  · exact windowOk_resetEvent _
  · exact exec_keeps_windowOk (windowOk_withHost.2 hw) hexec

/-- Under the invariant `filled_count` is the number of written slots. -/
theorem windowOk_filledCount_eq_length {s : State} (hw : WindowOk s) : s.filledCount = s.slots.length := by
  simpa using (congrArg List.length hw.1).symm

theorem windowOk_filledCount_le {s : State} (hw : WindowOk s) : s.filledCount ≤ s.cfg.n := hw.2.1

/-! ### A ready window -/

theorem ready_iff (s : State) : ready s = true ↔ s.filledCount = s.cfg.n := beq_iff_eq

/-- An empty window is not ready, since `N >= 1`. -/
theorem not_ready_of_empty {s : State} (h : s.filledCount = 0) : ready s = false := by
  rw [← Bool.not_eq_true, ready_iff, h]
  exact (Nat.ne_of_gt s.cfg.n_pos).symm

/-- A full counter is not moved by a further push (40_sample_averager.md R68). -/
theorem nextCount_self (n : Nat) : nextCount n n = n := Nat.min_eq_right (Nat.le_succ n)

/-- Every operation leaves a ready window ready. -/
theorem exec_keeps_ready {i : Instr} {s s' : State} (hr : ready s = true) (h : exec i s = .next s') :
    ready s' = true := by
  rw [ready_iff] at hr ⊢
  cases i with
  | push t hum =>
    obtain ⟨-, -, r, rfl⟩ := exec_push_next h
    simp [hr, nextCount_self]
  | _ =>
    obtain ⟨r, rfl⟩ := exec_next_of_not_push (by simp) h
    simpa using hr

/-- A ready window in order whose host presents no reset event. -/
def ReadyWithoutReset (s : State) : Prop := WindowOk s ∧ ready s = true ∧ ∀ e ∈ s.host, e ≠ .reset

theorem step_keeps_readyWithoutReset {s s' : State} (hs : ReadyWithoutReset s) (h : step s = .next s') :
    ReadyWithoutReset s' := by
  obtain ⟨hw, hr, hhost⟩ := hs
  refine ⟨step_keeps_windowOk hw h, ?_⟩
  rcases step_next_cases h with ⟨-, rfl⟩ | ⟨rest, hreset, rfl⟩ | ⟨c, rest, hcmd, hexec⟩
  · exact ⟨hr, hhost⟩
  · exact absurd rfl (hhost .reset (by simp [hreset]))
  · refine ⟨exec_keeps_ready (s := s.withHost rest) hr hexec, fun e he => hhost e ?_⟩
    rw [(exec_keeps_cfg_host hexec).2] at he
    rw [hcmd]
    exact List.mem_cons_of_mem _ he

/-- Once `N` or more readings were pushed, `next_slot` holds the oldest of the last `N`, push number `k - N`. -/
theorem represents_oldest_at_nextSlot {hist : List Reading} {s : State} (hrep : Represents hist s)
    (hN : s.cfg.n ≤ hist.length) (hlt : hist.length - s.cfg.n < hist.length) :
    slotRead s s.nextSlot = .ok hist[hist.length - s.cfg.n] := by
  obtain ⟨hnext, -, hread⟩ := hrep
  have hmod : (hist.length - s.cfg.n) % s.cfg.n = s.nextSlot := by rw [hnext, ← Nat.mod_eq_sub_mod hN]
  rw [slotRead_ok_iff, ← hmod]
  exact ⟨Nat.mod_lt _ s.cfg.n_pos, hread _ hlt (by omega)⟩

/-- After a completed push the slot at the old `next_slot` holds the reading pushed. -/
theorem exec_push_reads_back {t hum : Sample} {s s' : State} (h : exec (.push t hum) s = .next s') :
    slotRead s' s.nextSlot = .ok (pushReading t hum) := by
  obtain ⟨-, hlt, r, rfl⟩ := exec_push_next h
  rw [slotRead_ok_iff]
  exact ⟨hlt, memory_read_write_same _ _ _⟩

/-! ### The statements -/

/-- Settles O29: readiness, with the invariant and the absence of pending resets, is kept by every step of the run; and
`next_slot` of a window that holds `N` or more pushes is the slot of push `k - N`, since both leave the same rest
modulo `N`. -/
theorem readyForTheWholeLifetime : Obligations.ReadyForTheWholeLifetime := by
  refine ⟨fun k s s' hw hr hhost hrun => ?_, fun hist s s' t h hrep hN hexec => ?_⟩
  · obtain ⟨hw', hr', -⟩ := run_keeps (P := ReadyWithoutReset) (fun _ _ => step_keeps_readyWithoutReset) k
      ⟨hw, hr, hhost⟩ hrun
    exact ⟨((ready_iff s').1 hr').le, hr'⟩
  · exact ⟨represents_oldest_at_nextSlot hrep hN _, exec_push_reads_back hexec⟩

/-- Settles O27: a push writes at `next_slot` and advances it by the circular index law; any other operation only
returns a result. -/
theorem onlyPushMovesNextSlot : Obligations.OnlyPushMovesNextSlot := by
  intro i s s' hexec
  cases i with
  | push t h =>
    obtain ⟨-, -, r, rfl⟩ := exec_push_next hexec
    exact ⟨fun _ => nextIndex_lt s.cfg.n_pos _, memory_read_write_same _ _ _, rfl⟩
  | _ =>
    obtain ⟨r, rfl⟩ := exec_next_of_not_push (by simp) hexec
    exact ⟨id, rfl⟩

/-- Settles O28: the invariant after the step gives the count of written slots and the bound; the counter's move is
read off the kind of step, and a push does not decrease a counter that is at most `N`. -/
theorem filledCountSaturates : Obligations.FilledCountSaturates := by
  intro s s' hw hstep
  have hw' := step_keeps_windowOk hw hstep
  refine ⟨windowOk_filledCount_eq_length hw', windowOk_filledCount_le hw', ?_⟩
  rcases step_next_cases hstep with ⟨hhost, rfl⟩ | ⟨rest, hhost, rfl⟩ | ⟨c, rest, hhost, hexec⟩
  · rw [hhost]
    rfl
  · rw [hhost]
    rfl
  · rw [hhost]
    simp only
    generalize decode c = i at hexec ⊢
    cases i with
    | push t h =>
      obtain ⟨-, -, r, rfl⟩ := exec_push_next hexec
      exact ⟨Nat.le_min.2 ⟨Nat.le_succ _, windowOk_filledCount_le hw⟩, rfl⟩
    | _ =>
      obtain ⟨r, rfl⟩ := exec_next_of_not_push (by simp) hexec
      exact ⟨Nat.le_refl _, rfl⟩

/-- Settles O32: reset and the reset event put the counter to 0, and `N >= 1`. -/
theorem resetLeavesAnEmptyWindow : Obligations.ResetLeavesAnEmptyWindow :=
  ⟨fun cfg => ⟨resetWith_filledCount cfg, not_ready_of_empty (resetWith_filledCount cfg)⟩,
    fun s => ⟨resetEvent_filledCount s, not_ready_of_empty (resetEvent_filledCount s)⟩⟩

end Sys2Proof.Machine
end

-- ==== Proofs of the family 30_encoding.md ====
section
/-! SUPPORT. When an `ENCODE` returns a frame and which frame it is, and what stands at each index of a frame. -/

namespace Sys2Proof.Machine

/-- An `ENCODE` that returns a frame ran with the encoder, on a payload of the stated length within the bound, and
the frame is that of its operands. -/
theorem exec_encode_frame {s s' : State} {payloadLen : BitVec 16} {payload : List Byte} {dest : Dest} {f : List Byte}
    (h : exec (.encode payloadLen payload dest) s = .next s') (hf : s'.out = some (.frame f)) :
    s.cfg.hasEncoder = true ∧ payload.length = payloadLen.toNat ∧ payload.length ≤ 240 ∧
      f = frameOf s.cfg.txOptions payload dest := by
  rcases (execEncode_next_iff _ _ _ _ _).1 h with ⟨henc, hagree, rfl⟩ | ⟨-, rfl⟩
  · rw [returning_out, encodeResult_eq] at hf
    split at hf
    · next hle =>
      obtain rfl : frameOf s.cfg.txOptions payload dest = f := by simpa using hf
      exact ⟨henc, by simpa [payloadAgrees] using hagree, hle, rfl⟩
    · simp at hf
  · simp at hf

section
variable (opts : Byte) (payload : List Byte) (dest : Dest)

/-- The covered bytes of a frame are its content. -/
@[simp] theorem coveredBytes_frameOf : coveredBytes (frameOf opts payload dest) = frameContent opts payload dest := by
  simp [coveredBytes, frameOf, List.drop_append]

/-- A frame begins with its header. -/
theorem frameOf_getElem?_header {i : Nat} (hi : i < 3) :
    (frameOf opts payload dest)[i]? = (frameHeader payload.length)[i]? := by
  rw [frameOf, List.append_assoc, List.getElem?_append_left (by simpa using hi)]

/-- The content of a frame follows the three bytes of its header. -/
theorem frameOf_getElem?_content {i : Nat} (hi : i < payload.length + 11) :
    (frameOf opts payload dest)[3 + i]? = (frameContent opts payload dest)[i]? := by
  rw [frameOf, List.getElem?_append_left (by simp; omega), List.getElem?_append_right (by simp)]
  simp

/-- The checksum of the content is the last byte of a frame. -/
theorem frameOf_getElem?_checksum :
    (frameOf opts payload dest)[14 + payload.length]? = some (checksum (frameContent opts payload dest)) := by
  rw [frameOf, List.getElem?_append_right (by simp; omega)]
  have hlast : 14 + payload.length - (3 + (payload.length + 11)) = 0 := by omega
  simp [hlast]

/-- The destination stands in the content from its index 2, in its own byte order. -/
theorem frameContent_getElem?_dest {i : Nat} (hi : i < 8) :
    (frameContent opts payload dest)[2 + i]? = some dest[i] := by
  have hdest : frameContent opts payload dest = [frameType, frameId] ++ (dest.toList ++ ([opts] ++ payload)) := by
    simp [frameContent]
  rw [hdest, List.getElem?_append_right (by simp), List.getElem?_append_left (by simpa using hi)]
  simp [hi]

/-- The transmit options stand in the content between the destination and the payload. -/
theorem frameContent_getElem?_options : (frameContent opts payload dest)[10]? = some opts := by
  rw [frameContent, List.append_assoc, List.getElem?_append_right (by simp)]
  simp

/-- The payload is the rest of the content from its index 11. -/
theorem frameContent_getElem?_payload (i : Nat) : (frameContent opts payload dest)[11 + i]? = payload[i]? := by
  rw [frameContent, List.getElem?_append_right (by simp)]
  simp

end

/-- Settles O16: the header's bytes, then the content's at the same index less 3, then the checksum. -/
theorem frameLayout : Obligations.FrameLayout := by
  intro s s' payloadLen payload dest f hexec hout
  obtain ⟨-, -, -, rfl⟩ := exec_encode_frame hexec hout
  have header {i : Nat} := frameOf_getElem?_header s.cfg.txOptions payload dest (i := i)
  have content {i : Nat} := frameOf_getElem?_content s.cfg.txOptions payload dest (i := i)
  refine ⟨?length, ?delim, ?lenHigh, ?lenLow, ?type, ?id, ?dest, ?options, ?payload, ?checksum⟩
  case length => rw [frameOf_length, Nat.add_comm]
  case delim => exact header (by decide)
  case lenHigh => rw [header (by decide), ← frameDataLen_eq]; rfl
  case lenLow => rw [header (by decide), ← frameDataLen_eq]; rfl
  case type => exact content (i := 0) (by omega)
  case id => exact content (i := 1) (by omega)
  case dest =>
    intro i hi
    rw [show 5 + i = 3 + (2 + i) by omega, content (by omega), frameContent_getElem?_dest _ _ _ hi]
  case options => exact (content (i := 10) (by omega)).trans (frameContent_getElem?_options _ _ _)
  case payload =>
    intro i hi
    rw [show 14 + i = 3 + (11 + i) by omega, content (by omega), frameContent_getElem?_payload,
      List.getElem?_eq_getElem hi]
  case checksum => rw [frameOf_getElem?_checksum, coveredBytes_frameOf]

end Sys2Proof.Machine
end

-- ==== Proofs of the family 40_sample_averager.md ====
section
/-! SUPPORT. That a `PUSH` of a valid reading completes, which result it returns, and what it leaves unchanged. -/

namespace Sys2Proof.Machine

/-! ### The result of a push -/

/-- A full window in order can be read: no slot is out of range or unwritten (40_sample_averager.md R78). -/
theorem windowReadings_ok_of_full {s : State} (hw : WindowOk s) (hfull : s.filledCount = s.cfg.n) :
    ∃ rs, windowReadings s = .ok rs := by
  refine slotReadAll_ok_of _ fun i hi => ?_
  have hlt : i < s.cfg.n := List.mem_range.1 hi
  exact ⟨hlt, windowOk_read hw (hfull.symm ▸ hlt)⟩

/-- Averaging a window in order never faults. -/
theorem pushResult_ok_of_windowOk {s : State} (hw : WindowOk s) : ∃ r, pushResult s = .ok r := by
  cases hready : ready s with
  | false => exact ⟨_, (pushResult_ok_iff _ _).2 (.inr ⟨hready, rfl⟩)⟩
  | true =>
    obtain ⟨rs, hrs⟩ := windowReadings_ok_of_full hw ((ready_iff s).1 hready)
    exact ⟨_, (pushResult_ok_iff _ _).2 (.inl ⟨hready, rs, hrs, rfl⟩)⟩

/-- A full window's result is the average of its `N` slots, in index order. -/
theorem pushResult_of_full {s : State} {r : Result} (h : pushResult s = .ok r) (hfull : s.filledCount = s.cfg.n) :
    ∃ rs : List Reading, rs.length = s.cfg.n ∧ (∀ (i : Nat) (hi : i < rs.length), slotRead s i = .ok rs[i]) ∧
      r = .average (some (averageOf s.cfg rs)) := by
  rcases (pushResult_ok_iff s r).1 h with ⟨-, rs, hrs, hr⟩ | ⟨hready, -⟩
  · obtain ⟨hlen, hread⟩ := (windowReadings_ok_iff s rs).1 hrs
    exact ⟨rs, hlen, hread, hr⟩
  · exact absurd ((ready_iff s).2 hfull) (by simp [hready])

/-- A window that is not full has no average. -/
theorem pushResult_of_not_full {s : State} {r : Result} (h : pushResult s = .ok r) (hroom : s.filledCount ≠ s.cfg.n) :
    r = .average none := by
  rcases (pushResult_ok_iff s r).1 h with ⟨hready, -⟩ | ⟨-, hr⟩
  · exact absurd ((ready_iff s).1 hready) hroom
  · exact hr

/-- Either result of a push has the status `OK`. -/
theorem status_of_pushResult {s : State} {r : Result} (h : pushResult s = .ok r) : status r = 0#2 := by
  rcases (pushResult_ok_iff s r).1 h with ⟨-, rs, -, rfl⟩ | ⟨-, rfl⟩
  · rfl
  · rfl

/-! ### The push as an operation -/

/-- In a window in order a push of a valid reading completes: the write is in range, and the window it leaves is in
order again, so its result is defined. -/
theorem exec_push_completes {s : State} {t hum : Sample} (hw : WindowOk s)
    (hv : readingValid s.cfg.sample (pushReading t hum) = true) : ∃ s', exec (.push t hum) s = .next s' := by
  obtain ⟨r, hr⟩ := pushResult_ok_of_windowOk (windowOk_write_advance hw hv)
  obtain ⟨-, -, hlt, -, -⟩ := hw
  exact ⟨_, (execPush_next_iff _ _ _ _).2 ⟨hv, hlt, r, hr, rfl⟩⟩

/-- What a completed push returns is the result of the window it leaves. -/
theorem exec_push_out {s s' : State} {t hum : Sample} (h : exec (.push t hum) s = .next s') :
    ∃ r, s'.out = some r ∧ pushResult s' = .ok r := by
  obtain ⟨-, -, r, hr, rfl⟩ := (execPush_next_iff _ _ _ _).1 h
  refine ⟨r, rfl, ?_⟩
  rw [← hr]
  exact pushResult_congr rfl rfl rfl

/-- A completed push advances both counters (40_sample_averager.md R67, R68). -/
theorem exec_push_counters {s s' : State} {t hum : Sample} (h : exec (.push t hum) s = .next s') :
    s'.nextSlot = nextIndex s.cfg.n s.nextSlot ∧ s'.filledCount = nextCount s.cfg.n s.filledCount := by
  obtain ⟨-, -, r, rfl⟩ := exec_push_next h
  exact ⟨rfl, rfl⟩

/-- A completed push leaves every slot but the one at the old `next_slot` as it was. -/
theorem exec_push_reads_other {s s' : State} {t hum : Sample} (h : exec (.push t hum) s = .next s') {i : Nat}
    (hi : i ≠ s.nextSlot) : slotRead s' i = slotRead s i := by
  obtain ⟨-, -, r, rfl⟩ := exec_push_next h
  simp [slotRead, memory_read_write_other _ _ hi]

/-! ### The statement -/

/-- Settles O22: the invariant makes the push complete; its result is that of the window it leaves, which is an average
exactly when the counter has reached `N`. -/
theorem pushStoresAdvancesAndAverages : Obligations.PushStoresAdvancesAndAverages := by
  intro s t h hw hv
  obtain ⟨s', hexec⟩ := exec_push_completes hw hv
  obtain ⟨r, hout, hresult⟩ := exec_push_out hexec
  obtain ⟨hnext, hcount⟩ := exec_push_counters hexec
  obtain ⟨hcfg, hhost⟩ := exec_keeps_cfg_host hexec
  refine ⟨rfl, s', hexec, exec_push_reads_back hexec, fun i hi => exec_push_reads_other hexec hi, hnext, hcount, hcfg,
    hhost, fun hfull => ?full, fun hroom => ?filling, r, hout, status_of_pushResult hresult⟩
  case full =>
    obtain ⟨rs, hlen, hread, rfl⟩ := pushResult_of_full hresult (hcfg ▸ hfull)
    rw [hcfg] at hlen hout
    exact ⟨rs, hlen, hread, hout⟩
  case filling =>
    rw [hout, pushResult_of_not_full hresult (hcfg ▸ hroom)]

end Sys2Proof.Machine
end

-- ==== Proofs of the family 41_frame_encoder.md ====
section
/-! SUPPORT. What an `ENCODE` of a payload of the stated length returns, and the length field and the checksum of a
frame. -/

namespace Sys2Proof.Machine

/-! ### ENCODE with the encoder present -/

section
variable {s : State} {payloadLen : BitVec 16} {payload : List Byte} (dest : Dest)
  (henc : s.cfg.hasEncoder = true) (hlen : payload.length = payloadLen.toNat)
include henc hlen

/-- With the encoder present an `ENCODE` of a payload of the stated length completes and does nothing but return its
result. -/
theorem exec_encode_completes :
    exec (.encode payloadLen payload dest) s = .next (returning s (encodeResult s.cfg.txOptions payload dest)) :=
  (execEncode_next_iff _ _ _ _ _).2 (.inl ⟨henc, beq_iff_eq.2 hlen, rfl⟩)

/-- A payload within the bound gets its frame. -/
theorem exec_encode_of_le (hle : payload.length ≤ 240) :
    exec (.encode payloadLen payload dest) s = .next (returning s (.frame (frameOf s.cfg.txOptions payload dest))) := by
  rw [exec_encode_completes dest henc hlen, encodeResult_eq, if_pos hle]

/-- A payload above the bound gets the error. -/
theorem exec_encode_of_gt (hgt : 240 < payload.length) :
    exec (.encode payloadLen payload dest) s = .next (returning s (.err .payloadTooLarge)) := by
  rw [exec_encode_completes dest henc hlen, encodeResult_eq, if_neg (Nat.not_le.2 hgt)]

end

/-! ### The length field and the checksum of a frame -/

/-- The header with the length field computed (41_frame_encoder.md R84). -/
theorem frameHeader_eq (p : Nat) :
    frameHeader p = [0x7E#8, BitVec.ofNat 8 ((p + 11) / 256), BitVec.ofNat 8 ((p + 11) % 256)] := by
  rw [frameHeader, frameDataLen_eq, startDelim]

section
variable (opts : Byte) (payload : List Byte) (dest : Dest)

/-- The two bytes of the length field hold `P + 11` as long as it is a 16-bit number. -/
theorem lengthField_frameOf (h : payload.length + 11 < 2 ^ 16) :
    lengthField (frameOf opts payload dest) = payload.length + 11 := by
  simp only [lengthField, frameOf, frameHeader_eq, List.cons_append, List.getD_cons_succ, List.getD_cons_zero,
    BitVec.toNat_ofNat]
  omega

/-- After the header of a frame stand its content and the checksum of its content. -/
theorem frameOf_drop_header :
    (frameOf opts payload dest).drop 3 =
      frameContent opts payload dest ++ [checksum (frameContent opts payload dest)] := rfl

end

/-- Bytes and their checksum sum to `0xFF` modulo 256. -/
theorem byteSum_append_checksum_mod (bs : List Byte) : byteSum (bs ++ [checksum bs]) % 256 = 0xFF := by
  rw [byteSum_append, byteSum_cons, byteSum_nil, checksum_toNat]
  omega

/-! ### The statements -/

/-- Settles O9: `P + 15 > 255` is `P > 240`, and the frame spelled out there is the model's, its header computed. -/
theorem encodeReturnsTheFrame : Obligations.EncodeReturnsTheFrame := by
  intro s payloadLen payload dest henc hlen
  refine ⟨rfl, fun hgt => exec_encode_of_gt dest henc hlen (by omega), fun hle => ?_⟩
  intro content header sum frame
  have hframe : frameOf s.cfg.txOptions payload dest = frame := by rw [frameOf, frameHeader_eq]; rfl
  rw [← hframe]
  exact ⟨exec_encode_of_le dest henc hlen (by omega), congrArg (some ∘ BitVec.ofNat 8) (frameOf_length _ _ _)⟩

/-- Settles O10: the error leaves the configuration alone, so a legal payload then gets its frame, which replaces the
error at the port. -/
theorem oversizePayloadIsACheckedError : Obligations.OversizePayloadIsACheckedError := by
  intro s payloadLen payload dest henc hlen hgt
  refine ⟨_, exec_encode_of_gt dest henc hlen hgt, rfl, fun legalLen legal dest' hlegal hle => ?_⟩
  exact exec_encode_of_le dest' (s := returning s _) henc hlegal hle

/-- Settles O12: the bound on a returned frame's payload keeps the length field from wrapping. -/
theorem lengthFieldCountsTheCoveredBytes : Obligations.LengthFieldCountsTheCoveredBytes := by
  intro s s' payloadLen payload dest f hexec hout
  obtain ⟨-, -, hle, rfl⟩ := exec_encode_frame hexec hout
  have hfield := lengthField_frameOf s.cfg.txOptions payload dest (by omega)
  rw [hfield, coveredBytes_frameOf, frameContent_length, frameOf_length]
  exact ⟨rfl, rfl, rfl, rfl⟩

/-- Settles O13: the `11 + P` bytes from index 3 are the content, and the checksum of the content follows them. -/
theorem checksumIsTheFinalByte : Obligations.ChecksumIsTheFinalByte := by
  intro s s' payloadLen payload dest f hexec hout
  obtain ⟨-, -, -, rfl⟩ := exec_encode_frame hexec hout
  refine ⟨?length, _, frameOf_getElem?_checksum _ _ _, ?sum⟩
  case length => rw [frameOf_length]; omega
  case sum =>
    rw [frameOf_drop_header, List.take_left' (by rw [frameContent_length, Nat.add_comm]), checksum_toNat]

/-- Settles O14: what follows a frame's header is its content and the checksum of that content. -/
theorem checksumRoundTrip : Obligations.ChecksumRoundTrip := by
  intro s s' payloadLen payload dest f hexec hout
  obtain ⟨-, -, -, rfl⟩ := exec_encode_frame hexec hout
  rw [frameOf_drop_header]
  exact byteSum_append_checksum_mod _

/-- Settles O20: the result is a function of the operands and `TX_OPTIONS`. -/
theorem encodeIsDeterministic : Obligations.EncodeIsDeterministic := by
  intro s₁ s₂ payloadLen payload dest henc₁ henc₂ hopts hlen
  refine ⟨_, _, exec_encode_completes dest henc₁ hlen, exec_encode_completes dest henc₂ hlen, ?_⟩
  rw [returning_out, returning_out, hopts]

/-- Settles O18: the frame of the empty payload, whose content is the 11 bytes before a payload. -/
theorem emptyPayloadGivesFifteenBytes : Obligations.EmptyPayloadGivesFifteenBytes := by
  intro s dest henc
  have hcovered := coveredBytes_frameOf s.cfg.txOptions [] dest
  refine ⟨_, exec_encode_of_le dest henc rfl (Nat.zero_le _), frameOf_length _ _ _, rfl, rfl, ?content, ?checksum⟩
  case content => exact hcovered.trans (List.append_nil _)
  case checksum => rw [hcovered]; exact frameOf_getElem?_checksum _ _ _

end Sys2Proof.Machine
end

-- ==== Proofs of the family other ====
section
/-! SUPPORT. How a run goes on under the host's duties, what the window holds of the pushes since reset, the byte-serial
emitter, the reference mean, and the statements that speak of no one chapter of the spec. -/

namespace Sys2Proof.Machine

/-! ### Runs and steps under the host's duties -/

/-- A run goes on from the state that its first step reaches. -/
theorem run_succ_of_next {M : Host.Core} {s mid : M.State} (h : M.step s = .next mid) (k : Nat) :
    M.run (k + 1) s = M.run k mid := by
  rw [Host.Core.run, h]

/-- The same for the block's own step. -/
theorem run_succ_of_step {s mid : State} (h : step s = .next mid) (k : Nat) :
    Host.Core.run core (k + 1) s = Host.Core.run core k mid := run_succ_of_next (M := core) h k

/-- Under the invariant no operation faults: a push of a valid reading completes, any other push is refused. -/
theorem exec_ne_fault {s : State} (hw : WindowOk s) (i : Instr) (f : Fault) : exec i s ≠ .fault f := by
  cases i with
  | nop => simp [execNop]
  | push t h =>
    cases hv : readingValid s.cfg.sample (pushReading t h) with
    | true =>
      obtain ⟨s', hs'⟩ := exec_push_completes hw hv
      simp [hs']
    | false => simp [execPush_of_not_valid hv]
  | encode payloadLen payload dest =>
    rw [exec_encode, execEncode]
    split_ifs <;> simp
  | reserved => simp [execReserved]

/-- Under the invariant a command on which the host meets its duties completes (60_exceptions.md section 7). -/
theorem exec_completes_of_duty {s : State} {c : Command} (hw : WindowOk s)
    (hd : dutyMet s.cfg (.command c) = true) : ∃ s', exec (decode c) s = .next s' := by
  simp only [dutyMet] at hd
  generalize decode c = i at hd ⊢
  cases i with
  | nop => exact ⟨_, rfl⟩
  | push t h => exact exec_push_completes hw hd
  | encode payloadLen payload dest =>
    cases henc : s.cfg.hasEncoder with
    | false => exact ⟨_, (execEncode_next_iff _ _ _ _ _).2 (.inr ⟨henc, rfl⟩)⟩
    | true =>
      have hagree : payloadAgrees payloadLen payload = true := by simpa [henc] using hd
      exact ⟨_, (execEncode_next_iff _ _ _ _ _).2 (.inl ⟨henc, hagree, rfl⟩)⟩
  | reserved => exact ⟨_, rfl⟩

/-- Under the invariant a step that serves an event on which the host meets its duties completes, and takes off that
event alone. -/
theorem step_completes_of_duty {s : State} {e : HostEvent} {rest : List HostEvent} (hw : WindowOk s)
    (hh : s.host = e :: rest) (hd : dutyMet s.cfg e = true) :
    ∃ s', step s = .next s' ∧ s'.host = rest ∧ s'.cfg = s.cfg := by
  cases e with
  | reset => exact ⟨_, step_reset hh, rfl, rfl⟩
  | command c =>
    obtain ⟨s', hexec⟩ := exec_completes_of_duty (s := s.withHost rest) hw hd
    obtain ⟨hcfg, hhost⟩ := exec_keeps_cfg_host hexec
    exact ⟨s', (step_command hh).trans hexec, hhost, hcfg⟩

/-- Under the invariant a list of events on which the host meets its duties runs to its end. -/
theorem run_completes_of_duty (es : List HostEvent) {s : State} (hw : WindowOk s) (hh : s.host = es)
    (hd : ∀ e ∈ es, dutyMet s.cfg e = true) :
    ∃ s', Host.Core.run core es.length s = .next s' ∧ s'.host = [] ∧ WindowOk s' ∧ s'.cfg = s.cfg := by
  induction es generalizing s with
  | nil => exact ⟨s, rfl, hh, hw, rfl⟩
  | cons e rest ih =>
    obtain ⟨mid, hstep, hhost, hcfg⟩ := step_completes_of_duty hw hh (hd e List.mem_cons_self)
    obtain ⟨s', hrun, hend, hw', hcfg'⟩ := ih (step_keeps_windowOk hw hstep) hhost
      fun e' he' => hcfg ▸ hd e' (List.mem_cons_of_mem _ he')
    exact ⟨s', (run_succ_of_step hstep _).trans hrun, hend, hw', hcfg'.trans hcfg⟩

/-! ### What the window holds of the pushes since reset -/

/-- Distinct push numbers less than `n` apart lie in distinct slots. -/
theorem mod_ne_mod_of_lt_add {p k n : Nat} (hpk : p < k) (hkn : k < p + n) : p % n ≠ k % n := by
  intro h
  have hdvd : n ∣ k - p := (Nat.modEq_iff_dvd' hpk.le).1 h
  exact absurd (Nat.le_of_dvd (by omega) hdvd) (by omega)

/-- The window after reset holds no push. -/
theorem represents_nil {s : State} (hnext : s.nextSlot = 0) (hcount : s.filledCount = 0) : Represents [] s := by
  refine ⟨by simpa using hnext, by simpa using hcount, fun p hp => absurd hp (Nat.not_lt_zero p)⟩

/-- A completed push adds its reading to the history: the slot it overwrites is that of the push `N` before it, and no
later push lies there. -/
theorem represents_push {hist : List Reading} {s s' : State} {t h : Sample} (hrep : Represents hist s)
    (hexec : exec (.push t h) s = .next s') : Represents (hist ++ [pushReading t h]) s' := by
  obtain ⟨-, -, r, rfl⟩ := exec_push_next hexec
  obtain ⟨hnext, hcount, hread⟩ := hrep
  refine ⟨?next, ?count, fun p hp hlast => ?reads⟩
  case next => simp [nextIndex, hnext]
  case count =>
    simp only [returning_filledCount, advance_filledCount, nextCount, withSlots_filledCount, withSlots_cfg,
      returning_cfg, advance_cfg, hcount, List.length_append, List.length_singleton]
    omega
  case reads =>
    simp only [List.length_append, List.length_singleton, returning_cfg, advance_cfg, withSlots_cfg] at hp hlast
    simp only [returning_slots, advance_slots, withSlots_slots, returning_cfg, advance_cfg, withSlots_cfg, hnext]
    rcases Nat.lt_succ_iff_lt_or_eq.1 hp with hold | rfl
    · rw [memory_read_write_other _ _ (mod_ne_mod_of_lt_add hold (by omega)), hread p hold (by omega),
        List.getElem_append_left hold]
    · simp

/-- Which push a slot holds (40_sample_averager.md R71): the one of the last `n` whose number is the slot's index modulo
`n`. -/
theorem ringIndex_spec {n k i : Nat} (hnk : n ≤ k) (hi : i < n) :
    ringIndex n k i < k ∧ k ≤ ringIndex n k i + n ∧ ringIndex n k i % n = i := by
  have hrest : (k - 1 + n - i) % n < n := Nat.mod_lt _ (by omega)
  refine ⟨by unfold ringIndex; omega, by unfold ringIndex; omega, ?_⟩
  obtain ⟨q, hq⟩ : ∃ q, (k - 1 + n - i) / n = q + 1 :=
    Nat.exists_eq_succ_of_ne_zero (Nat.div_pos (by omega) (by omega)).ne'
  have hsplit := Nat.div_add_mod (k - 1 + n - i) n
  rw [hq, Nat.mul_add_one] at hsplit
  have hidx : ringIndex n k i = i + n * q := by unfold ringIndex; omega
  rw [hidx, Nat.add_mul_mod_self_left, Nat.mod_eq_of_lt hi]

/-- Once `N` or more readings were pushed, slot `i` holds push number `ringIndex N k i`. -/
theorem represents_slotRead {hist : List Reading} {s : State} (hrep : Represents hist s) (hN : s.cfg.n ≤ hist.length)
    {i : Nat} (hi : i < s.cfg.n) (hlt : ringIndex s.cfg.n hist.length i < hist.length) :
    slotRead s i = .ok hist[ringIndex s.cfg.n hist.length i] := by
  obtain ⟨-, -, hread⟩ := hrep
  obtain ⟨-, hlast, hmod⟩ := ringIndex_spec hN hi
  exact (slotRead_ok_iff _ _ _).2 ⟨hi, by simpa only [hmod] using hread _ hlt hlast⟩

/-- Once `N` or more readings were pushed, the window reads as the last `N` of them in slot-index order. -/
theorem represents_windowReadings {hist : List Reading} {s : State} (hrep : Represents hist s)
    (hN : s.cfg.n ≤ hist.length) : windowReadings s = .ok (lastInSlotOrder s.cfg.n hist) := by
  refine (windowReadings_ok_iff _ _).2 ⟨by simp [lastInSlotOrder], fun i hlen => ?_⟩
  have hi : i < s.cfg.n := by simpa [lastInSlotOrder] using hlen
  have hlt := (ringIndex_spec hN hi).1
  rw [represents_slotRead hrep hN hi hlt]
  simp only [lastInSlotOrder, List.getElem_map, List.getElem_range]
  rw [List.getD_eq_getElem _ _ hlt]

/-- A window is ready exactly when `N` or more readings were pushed. -/
theorem represents_ready_iff {hist : List Reading} {s : State} (hrep : Represents hist s) :
    ready s = true ↔ s.cfg.n ≤ hist.length := by
  obtain ⟨-, hcount, -⟩ := hrep
  rw [ready_iff, hcount]
  omega

/-- What the last push of a history returns: the means of the last `N` readings in slot-index order once there are
`N`. -/
def historyResult (cfg : Config) (hist : List Reading) : Result :=
  .average (if cfg.n ≤ hist.length then some (averageOf cfg (lastInSlotOrder cfg.n hist)) else none)

theorem represents_pushResult {hist : List Reading} {s : State} (hrep : Represents hist s) :
    pushResult s = .ok (historyResult s.cfg hist) := by
  have hready := represents_ready_iff hrep
  rw [pushResult_ok_iff, historyResult]
  by_cases hN : s.cfg.n ≤ hist.length
  · exact .inl ⟨hready.2 hN, _, represents_windowReadings hrep hN, by rw [if_pos hN]⟩
  · exact .inr ⟨Bool.eq_false_iff.2 (mt hready.1 hN), by rw [if_neg hN]⟩

/-- A completed push returns the result of the history it makes. -/
theorem represents_push_out {hist : List Reading} {s s' : State} {t h : Sample} (hrep : Represents hist s)
    (hexec : exec (.push t h) s = .next s') :
    s'.out = some (historyResult s.cfg (hist ++ [pushReading t h])) := by
  obtain ⟨r, hout, hresult⟩ := exec_push_out hexec
  rw [represents_pushResult (represents_push hrep hexec), (exec_keeps_cfg_host hexec).1, Except.ok.injEq] at hresult
  rw [hout, hresult]

/-- A window in order of the configuration `cfg` that holds the history `hist`, the result of whose last push is at the
port. -/
def HoldsPushes (cfg : Config) (hist : List Reading) (s : State) : Prop :=
  s.cfg = cfg ∧ WindowOk s ∧ Represents hist s ∧ (hist ≠ [] → s.out = some (historyResult cfg hist))

theorem holdsPushes_resetEvent (s : State) : HoldsPushes s.cfg [] (resetEvent s) :=
  ⟨rfl, windowOk_resetEvent s, represents_nil rfl rfl, fun h => absurd rfl h⟩

/-- From a window that holds `hist`, a step that serves a push of a valid reading completes and adds it. -/
theorem holdsPushes_step {cfg : Config} {hist : List Reading} {s : State} {r : Reading} {rest : List HostEvent}
    (hs : HoldsPushes cfg hist s) (hh : s.host = pushEvent r :: rest) (hv : readingValid cfg.sample r = true) :
    ∃ s', step s = .next s' ∧ s'.host = rest ∧ HoldsPushes cfg (hist ++ [r]) s' := by
  obtain ⟨rfl, hw, hrep, -⟩ := hs
  have hw' : WindowOk (s.withHost rest) := hw
  have hrep' : Represents hist (s.withHost rest) := hrep
  obtain ⟨s', hexec⟩ := exec_push_completes hw' hv
  obtain ⟨hcfg, hhost⟩ := exec_keeps_cfg_host hexec
  exact ⟨s', (step_command hh).trans hexec, hhost, hcfg, exec_keeps_windowOk hw' hexec,
    represents_push hrep' hexec, fun _ => represents_push_out (s := s.withHost rest) hrep' hexec⟩

/-- From a window that holds `hist`, a run of pushes of valid readings completes and adds them in order. -/
theorem holdsPushes_run (rs : List Reading) {cfg : Config} {hist : List Reading} {s : State}
    (hs : HoldsPushes cfg hist s) (hh : s.host = rs.map pushEvent)
    (hv : ∀ r ∈ rs, readingValid cfg.sample r = true) :
    ∃ s', Host.Core.run core rs.length s = .next s' ∧ HoldsPushes cfg (hist ++ rs) s' := by
  induction rs generalizing hist s with
  | nil => exact ⟨s, rfl, by simpa using hs⟩
  | cons r rest ih =>
    obtain ⟨mid, hstep, hhost, hmid⟩ := holdsPushes_step hs hh (hv r List.mem_cons_self)
    obtain ⟨s', hrun, hs'⟩ := ih hmid hhost fun r' hr' => hv r' (List.mem_cons_of_mem _ hr')
    exact ⟨s', (run_succ_of_step hstep _).trans hrun, by simpa using hs'⟩

/-! ### What a run leaves of the commands between its pushes -/

/-- Two states with one configuration, slot array, index and counter; the result port and the pending events may
differ. -/
def SameWindow (a b : State) : Prop :=
  a.cfg = b.cfg ∧ a.slots = b.slots ∧ a.nextSlot = b.nextSlot ∧ a.filledCount = b.filledCount

theorem SameWindow.trans {a b c : State} (hab : SameWindow a b) (hbc : SameWindow b c) : SameWindow a c := by
  obtain ⟨hcfg, hslots, hnext, hcount⟩ := hab
  obtain ⟨hcfg', hslots', hnext', hcount'⟩ := hbc
  exact ⟨hcfg.trans hcfg', hslots.trans hslots', hnext.trans hnext', hcount.trans hcount'⟩

/-- A push that completes on one of two states with the same window completes on the other, and leaves the same
window. -/
theorem exec_push_sameWindow {a b a' : State} {t h : Sample} (hab : SameWindow a b)
    (hexec : exec (.push t h) a = .next a') : ∃ b', exec (.push t h) b = .next b' ∧ SameWindow a' b' := by
  obtain ⟨hcfg, hslots, hnext, hcount⟩ := hab
  obtain ⟨hv, hlt, r, hr, rfl⟩ := (execPush_next_iff _ _ _ _).1 hexec
  refine ⟨_, (execPush_next_iff _ _ _ _).2 ⟨hcfg ▸ hv, by rwa [← hnext, ← hcfg], r, ?_, rfl⟩, ?_⟩
  · rw [← hr]
    exact pushResult_congr (by simp [hcfg]) (by simp [hslots, hnext]) (by simp [hcfg, hcount])
  · simp [SameWindow, hcfg, hslots, hnext, hcount]

theorem isPush_iff (c : Command) : isPush c = true ↔ ∃ t h, decode c = .push t h := by
  unfold isPush
  cases decode c <;> simp

/-- A completed command that is no push leaves the window as it was. -/
theorem exec_sameWindow_of_not_push {c : Command} {s s' : State} (hc : ¬ isPush c = true)
    (hexec : exec (decode c) s = .next s') : SameWindow s' s := by
  obtain ⟨r, rfl⟩ := exec_next_of_not_push (fun t h hd => hc ((isPush_iff c).2 ⟨t, h, hd⟩)) hexec
  exact ⟨rfl, rfl, rfl, rfl⟩

/-- From two states with the same window, a run of commands that completes on one and the run of its pushes on the
other leave the same window. -/
theorem run_pushes_sameWindow (cs : List Command) {a b a' : State} (hab : SameWindow a b)
    (ha : a.host = cs.map HostEvent.command) (hb : b.host = (cs.filter isPush).map HostEvent.command)
    (hrun : Host.Core.run core cs.length a = .next a') :
    ∃ b', Host.Core.run core (cs.filter isPush).length b = .next b' ∧ SameWindow a' b' := by
  induction cs generalizing a b with
  | nil =>
    obtain rfl : a = a' := Host.Outcome.next.inj hrun
    exact ⟨b, rfl, hab⟩
  | cons c rest ih =>
    obtain ⟨mid, hmid, hrest⟩ := run_succ_next hrun
    have hexec : exec (decode c) (a.withHost (rest.map HostEvent.command)) = .next mid :=
      (step_command ha).symm.trans hmid
    have hhost := (exec_keeps_cfg_host hexec).2
    by_cases hc : isPush c = true
    · rw [List.filter_cons_of_pos hc] at hb ⊢
      obtain ⟨t, h, hd⟩ := (isPush_iff c).1 hc
      rw [hd] at hexec
      have hab' : SameWindow (a.withHost (rest.map HostEvent.command))
          (b.withHost ((rest.filter isPush).map HostEvent.command)) := hab
      obtain ⟨midB, hexecB, hsame⟩ := exec_push_sameWindow hab' hexec
      obtain ⟨b', hrunB, hsame'⟩ := ih hsame hhost (exec_keeps_cfg_host hexecB).2 hrest
      have hstep : step b = .next midB := by rw [step_command hb, hd, hexecB]
      exact ⟨b', (run_succ_of_step hstep _).trans hrunB, hsame'⟩
    · rw [List.filter_cons_of_neg hc] at hb ⊢
      exact ih ((exec_sameWindow_of_not_push hc hexec).trans hab) hhost hb hrest

/-! ### The statements about steps and runs -/

/-- Settles O35: the step lemma of the invariant, which gives the canonical form of the slot array. -/
theorem everyStepKeepsTheInvariant : Obligations.EveryStepKeepsTheInvariant := fun _ _ hw hstep =>
  ⟨step_keeps_windowOk hw hstep, windowOk_slots_wf (step_keeps_windowOk hw hstep)⟩

/-- Settles O37, by induction over the pending events: each is served by a step that completes and keeps the
invariant. -/
theorem everyDutifulRunCompletes : Obligations.EveryDutifulRunCompletes := fun _ hw hd =>
  run_completes_of_duty _ hw rfl hd

/-- Settles O36: the idle step and the reset event complete, and no operation faults. -/
theorem noStepFaultsUnderTheInvariant : Obligations.NoStepFaultsUnderTheInvariant := by
  intro s f hw
  match hh : s.host with
  | [] => simp [step_idle hh]
  | .reset :: rest => simp [step_reset hh]
  | .command c :: rest =>
    rw [step_command hh]
    exact exec_ne_fault (windowOk_withHost.2 hw) _ _

/-- Settles O43: the empty history after reset, and one push more. -/
theorem pushExtendsTheHistory : Obligations.PushExtendsTheHistory :=
  ⟨fun _ => represents_nil rfl rfl, fun _ _ _ _ _ => represents_push⟩

/-- Settles O45, by the arithmetic of `ringIndex`. -/
theorem slotOrderIsPushOrderRotated : Obligations.SlotOrderIsPushOrderRotated := by
  intro hist s i hrep hN hi
  obtain ⟨hlt, hlast, hmod⟩ := ringIndex_spec hN hi
  exact ⟨hlt, represents_slotRead hrep hN hi hlt, hlast, hmod⟩

/-- Settles O44: the reset event leaves the empty history, and the pushes after it add their readings to it one by
one. -/
theorem ringSemanticsAfterReset : Obligations.RingSemanticsAfterReset := by
  intro s rs hv hne
  have hreset : step { s with host := .reset :: rs.map pushEvent } = .next (resetEvent (s.withHost _)) := step_reset rfl
  obtain ⟨s', hrun, rfl', -, hrep, hout⟩ := holdsPushes_run rs (holdsPushes_resetEvent (s.withHost _)) rfl hv
  have hcfg : s'.cfg = s.cfg := rfl'
  refine ⟨s', (run_succ_of_step hreset _).trans hrun, hcfg, hrep, ?ready, hout hne⟩
  case ready => rw [represents_ready_iff hrep, hcfg, List.nil_append]

/-- Settles O46, by induction over the commands, with a second run beside the first that leaves out what is no push. -/
theorem windowDependsOnPushesAlone : Obligations.WindowDependsOnPushesAlone := by
  intro s s' cs hrun
  have hsame : SameWindow { s with host := cs.map HostEvent.command }
      { s with host := (cs.filter isPush).map HostEvent.command } := ⟨rfl, rfl, rfl, rfl⟩
  obtain ⟨s'', hrun', hcfg, hslots, hnext, hcount⟩ := run_pushes_sameWindow cs hsame rfl rfl hrun
  exact ⟨s'', hrun', hslots.symm, hnext.symm, hcount.symm, hcfg.symm⟩

/-! ### What an operation returns, and on what it depends -/

/-- A completed push returns an average or none, as the window it leaves is ready or not. -/
theorem exec_push_out_average {s s' : State} {t h : Sample} (hexec : exec (.push t h) s = .next s') :
    ∃ a, s'.out = some (.average a) ∧ a.isSome = ready s' := by
  obtain ⟨r, hout, hresult⟩ := exec_push_out hexec
  rcases (pushResult_ok_iff _ _).1 hresult with ⟨hready, rs, -, rfl⟩ | ⟨hready, rfl⟩
  · exact ⟨_, hout, hready.symm⟩
  · exact ⟨_, hout, hready.symm⟩

/-- An operation that returns a frame is an `ENCODE`. -/
theorem exec_frame_is_encode {i : Instr} {s s' : State} {f : List Byte} (hexec : exec i s = .next s')
    (hout : s'.out = some (.frame f)) : ∃ payloadLen payload dest, i = .encode payloadLen payload dest := by
  cases i with
  | encode payloadLen payload dest => exact ⟨_, _, _, rfl⟩
  | nop =>
    obtain rfl := (execNop_next_iff _ _).1 hexec
    simp at hout
  | push t h =>
    obtain ⟨a, havg, -⟩ := exec_push_out_average hexec
    simp [havg] at hout
  | reserved =>
    obtain rfl := (execReserved_next_iff _ _).1 hexec
    simp at hout

/-- A push of a valid reading at an index that does not exist faults. -/
theorem execPush_of_out_of_range {s : State} {t h : Sample}
    (hv : readingValid s.cfg.sample (pushReading t h) = true) (hout : s.cfg.n ≤ s.nextSlot) :
    execPush t h s = .fault (.slotOutOfRange s.nextSlot) := by
  rw [execPush_of_valid hv, slotWrite, if_neg (Nat.not_lt.2 hout)]

/-- A push of a valid reading faults as the averaging after its writes does. -/
theorem execPush_of_pushResult_error {s : State} {t h : Sample} {f : Fault}
    (hv : readingValid s.cfg.sample (pushReading t h) = true) (hlt : s.nextSlot < s.cfg.n)
    (herr : pushResult (advance (s.withSlots (Memory.write s.slots s.nextSlot (pushReading t h)))) = .error f) :
    execPush t h s = .fault f := by
  rw [execPush_of_valid hv, slotWrite, if_pos hlt]
  simp only [herr]

/-- A push does not depend on the result at the port, however it ends. -/
theorem execPush_withOut (t h : Sample) (s : State) (o : Option Result) :
    execPush t h (s.withOut o) = execPush t h s := by
  cases hv : readingValid s.cfg.sample (pushReading t h) with
  | false => exact (execPush_of_not_valid (s := s.withOut o) hv).trans (execPush_of_not_valid hv).symm
  | true =>
    rcases Nat.lt_or_ge s.nextSlot s.cfg.n with hlt | hge
    · have hcongr (m : Memory) :
          pushResult (advance ((s.withOut o).withSlots m)) = pushResult (advance (s.withSlots m)) :=
        pushResult_congr rfl rfl rfl
      cases hr : pushResult (advance (s.withSlots (Memory.write s.slots s.nextSlot (pushReading t h)))) with
      | error f =>
        exact (execPush_of_pushResult_error (s := s.withOut o) hv hlt ((hcongr _).trans hr)).trans
          (execPush_of_pushResult_error hv hlt hr).symm
      | ok r =>
        exact ((execPush_next_iff t h (s.withOut o) _).2 ⟨hv, hlt, r, (hcongr _).trans hr, rfl⟩).trans
          ((execPush_next_iff t h s _).2 ⟨hv, hlt, r, hr, rfl⟩).symm
    · exact (execPush_of_out_of_range (s := s.withOut o) hv hge).trans (execPush_of_out_of_range hv hge).symm

/-- No operation depends on the result at the port. -/
theorem exec_withOut (i : Instr) (s : State) (o : Option Result) : exec i (s.withOut o) = exec i s := by
  cases i with
  | nop => rfl
  | push t h => exact execPush_withOut t h s o
  | encode payloadLen payload dest => rfl
  | reserved => rfl

/-- Two windows of `N` slots that agree in one component of every slot read alike in it. -/
theorem windowReadings_map_eq {a b : State} {rs₁ rs₂ : List Reading} (f : Reading → Sample)
    (ha : windowReadings a = .ok rs₁) (hb : windowReadings b = .ok rs₂) (hn : a.cfg.n = b.cfg.n)
    (hread : ∀ i, (Memory.read a.slots i).map f = (Memory.read b.slots i).map f) : rs₁.map f = rs₂.map f := by
  obtain ⟨hlen₁, hread₁⟩ := (windowReadings_ok_iff _ _).1 ha
  obtain ⟨hlen₂, hread₂⟩ := (windowReadings_ok_iff _ _).1 hb
  refine List.ext_getElem (by simp [hlen₁, hlen₂, hn]) fun i hi₁ hi₂ => ?_
  rw [List.length_map] at hi₁ hi₂
  have h := hread i
  rw [((slotRead_ok_iff _ _ _).1 (hread₁ i hi₁)).2, ((slotRead_ok_iff _ _ _).1 (hread₂ i hi₂)).2] at h
  simpa using h

/-- Writing readings that agree in one component keeps two slot arrays in agreement in it. -/
theorem memory_write_map_congr {m₁ m₂ : Memory} (f : Reading → Sample) {r₁ r₂ : Reading} (k : Nat) (hr : f r₁ = f r₂)
    (hread : ∀ i, (Memory.read m₁ i).map f = (Memory.read m₂ i).map f) (i : Nat) :
    (Memory.read (Memory.write m₁ k r₁) i).map f = (Memory.read (Memory.write m₂ k r₂) i).map f := by
  by_cases hi : i = k
  · subst hi
    simp [hr]
  · rw [memory_read_write_other _ _ hi, memory_read_write_other _ _ hi, hread]

/-- A completed push that returns an average has averaged the window it leaves. -/
theorem exec_push_average {s s' : State} {t h : Sample} {a : Average} (hexec : exec (.push t h) s = .next s')
    (hout : s'.out = some (.average (some a))) :
    ∃ rs, windowReadings s' = .ok rs ∧ a = averageOf s.cfg rs := by
  obtain ⟨r, hr, hresult⟩ := exec_push_out hexec
  obtain rfl : r = .average (some a) := Option.some.inj (hr.symm.trans hout)
  rcases (pushResult_ok_iff _ _).1 hresult with ⟨-, rs, hrs, ha⟩ | ⟨-, ha⟩
  · rw [(exec_keeps_cfg_host hexec).1] at ha
    exact ⟨rs, hrs, by simpa using ha⟩
  · simp at ha

/-- Two pushes at one index, of readings that agree in one component, leave windows that read alike in that component
where the windows before did. -/
theorem exec_push_windowReadings_map_eq {s₁ s₂ t₁ t₂ : State} {t h t' h' : Sample} {rs₁ rs₂ : List Reading}
    (f : Reading → Sample) (hcfg : s₁.cfg = s₂.cfg) (hnext : s₁.nextSlot = s₂.nextSlot)
    (hexec₁ : exec (.push t h) s₁ = .next t₁) (hexec₂ : exec (.push t' h') s₂ = .next t₂)
    (hrs₁ : windowReadings t₁ = .ok rs₁) (hrs₂ : windowReadings t₂ = .ok rs₂)
    (hpush : f (pushReading t h) = f (pushReading t' h'))
    (hread : ∀ i, (Memory.read s₁.slots i).map f = (Memory.read s₂.slots i).map f) : rs₁.map f = rs₂.map f := by
  obtain ⟨-, -, r₁, rfl⟩ := exec_push_next hexec₁
  obtain ⟨-, -, r₂, rfl⟩ := exec_push_next hexec₂
  refine windowReadings_map_eq f hrs₁ hrs₂ (congrArg Config.n hcfg) fun i => ?_
  simp only [returning_slots, advance_slots, withSlots_slots, hnext]
  exact memory_write_map_congr f _ hpush hread i

/-- Reading a list of slots that exist, one of which was never written, faults on one that was never written. -/
theorem slotReadAll_unwritten {s : State} (is : List Nat) (hlt : ∀ i ∈ is, i < s.cfg.n)
    (hex : ∃ i ∈ is, Memory.read s.slots i = none) :
    ∃ j ∈ is, slotReadAll s is = .error (.unwrittenSlot j) ∧ Memory.read s.slots j = none := by
  induction is with
  | nil => simp at hex
  | cons k rest ih =>
    have hk : k < s.cfg.n := hlt k List.mem_cons_self
    cases hr : Memory.read s.slots k with
    | none => exact ⟨k, List.mem_cons_self, by simp [slotReadAll, slotRead, hk, hr], hr⟩
    | some r =>
      have hrest : ∃ i ∈ rest, Memory.read s.slots i = none := by
        obtain ⟨i, hi, hnone⟩ := hex
        rcases List.mem_cons.1 hi with rfl | hi
        · simp [hr] at hnone
        · exact ⟨i, hi, hnone⟩
      obtain ⟨j, hj, hall, hnone⟩ := ih (fun i hi => hlt i (List.mem_cons_of_mem _ hi)) hrest
      exact ⟨j, List.mem_cons_of_mem _ hj, by simp [slotReadAll, (slotRead_ok_iff s k r).2 ⟨hk, hr⟩, hall], hnone⟩

/-! ### The widths of the counters -/

/-- `ceilLog2 m` is the least width in which `m` values fit (00_scope.md section 4). -/
theorem ceilLog2_le_iff (m w : Nat) : ceilLog2 m ≤ w ↔ m ≤ 2 ^ w := by
  have hpos := Nat.two_pow_pos w
  unfold ceilLog2
  split
  · omega
  · rw [Nat.succ_le_iff, Nat.log2_lt (by omega)]
    omega

/-- All values below `n` are below a bound exactly when `n` is at most the bound. -/
theorem forall_lt_lt_iff (n b : Nat) : (∀ i, i < n → i < b) ↔ n ≤ b :=
  ⟨fun h => Nat.le_of_not_lt fun hb => Nat.lt_irrefl b (h b hb), fun h _ hi => Nat.lt_of_lt_of_le hi h⟩

/-! ### The statements about single operations -/

/-- Settles O23: the only slot a push writes is the one at `next_slot`. -/
theorem pushFrame : Obligations.PushFrame := by
  intro s s' t h hexec
  obtain ⟨hcfg, hhost⟩ := exec_keeps_cfg_host hexec
  exact ⟨hcfg, hhost, fun i hi => exec_push_reads_other hexec hi⟩

/-- Settles O26: the slot written reads as the reading pushed, every other as before, so the averaging meets an
unwritten slot that is not the one written. -/
theorem averagingAnUnwrittenSlotFaults : Obligations.AveragingAnUnwrittenSlotFaults := by
  intro s t h i hv hlt hfull hi hne hnone
  set s' := advance (s.withSlots (Memory.write s.slots s.nextSlot (pushReading t h))) with hs'
  have hother {k : Nat} (hk : k ≠ s.nextSlot) : Memory.read s'.slots k = Memory.read s.slots k :=
    memory_read_write_other _ _ hk
  obtain ⟨j, hj, herr, hjnone⟩ := slotReadAll_unwritten (s := s') (List.range s'.cfg.n) (fun _ => List.mem_range.1)
    ⟨i, List.mem_range.2 hi, (hother hne).trans hnone⟩
  have hjne : j ≠ s.nextSlot := by
    rintro rfl
    simp [hs'] at hjnone
  have hready : ready s' = true := (ready_iff s').2 hfull
  have hresult : pushResult s' = .error (.unwrittenSlot j) := by
    simp only [pushResult, hready, windowReadings, herr, if_true]
  exact ⟨j, execPush_of_pushResult_error hv hlt hresult, List.mem_range.1 hj, hjne, (hother hjne).symm.trans hjnone⟩

/-- Settles O30: a width holds the values below `n` exactly when `n` is at most its power of two. -/
theorem counterWidthsSuffice : Obligations.CounterWidthsSuffice := by
  intro n _
  refine ⟨(forall_lt_lt_iff _ _).2 ((ceilLog2_le_iff _ _).1 (Nat.le_max_right _ _)), fun k hk => ?_, fun w hw h => ?_,
    fun w h => (ceilLog2_le_iff _ _).2 (h n (Nat.le_refl n))⟩
  · exact Nat.lt_of_lt_of_le (Nat.lt_succ_of_le hk) ((ceilLog2_le_iff _ _).1 (Nat.le_refl (cntWidth n)))
  · exact Nat.max_le.2 ⟨hw, (ceilLog2_le_iff _ _).2 ((forall_lt_lt_iff _ _).1 h)⟩

/-- Settles O31: each mean is a function of its own component of the window after the push. -/
theorem componentsAreNeverMixed : Obligations.ComponentsAreNeverMixed := by
  intro s₁ s₂ t₁ t₂ a₁ a₂ t h t' h' hcfg hnext hexec₁ hexec₂ hout₁ hout₂
  obtain ⟨rs₁, hrs₁, rfl⟩ := exec_push_average hexec₁ hout₁
  obtain ⟨rs₂, hrs₂, rfl⟩ := exec_push_average hexec₂ hout₂
  have hmap (f : Reading → Sample) := exec_push_windowReadings_map_eq f hcfg hnext hexec₁ hexec₂ hrs₁ hrs₂
  refine ⟨fun ht hread => ?_, fun hh hread => ?_⟩
  · simp only [averageOf, hcfg, hmap Reading.t ht hread]
  · simp only [averageOf, hcfg, hmap Reading.h hh hread]

/-- Settles O38: idling and the reset event leave the configuration, and so does every operation. -/
theorem configurationNeverChanges : Obligations.ConfigurationNeverChanges := by
  intro s s' hstep
  rcases step_next_cases hstep with ⟨-, rfl⟩ | ⟨rest, -, rfl⟩ | ⟨c, rest, -, hexec⟩
  · rfl
  · rfl
  · exact (exec_keeps_cfg_host hexec).1

/-- Settles O39: an operation other than `PUSH` hands over a result and does nothing else. -/
theorem otherOperationsLeaveTheWindow : Obligations.OtherOperationsLeaveTheWindow := by
  intro i s s' hi hexec
  obtain ⟨r, rfl⟩ := exec_next_of_not_push hi hexec
  exact ⟨rfl, rfl, rfl, rfl, rfl, rfl, fun k => slotRead_congr rfl rfl k⟩

/-- Settles O40: `NOP` returns `OK` and a push an average, and what is left hands over its result alone. -/
theorem anErrorChangesNothing : Obligations.AnErrorChangesNothing := by
  intro i s s' e hexec hout
  have hnop : i ≠ .nop := by
    rintro rfl
    obtain rfl := (execNop_next_iff _ _).1 hexec
    simp at hout
  have hpush : ∀ t h, i ≠ .push t h := by
    rintro t h rfl
    obtain ⟨a, havg, -⟩ := exec_push_out_average hexec
    simp [havg] at hout
  obtain ⟨r, rfl⟩ := exec_next_of_not_push hpush hexec
  obtain rfl : r = .err e := Option.some.inj hout
  exact ⟨rfl, hnop, hpush⟩

/-- Settles O41, operation by operation; an `ENCODE` returns one of two errors or a frame. -/
theorem statusOfEveryOperation : Obligations.StatusOfEveryOperation := by
  intro i s s' hexec
  cases i with
  | nop =>
    obtain rfl := (execNop_next_iff _ _).1 hexec
    exact ⟨.ok, rfl, by decide, rfl, rfl⟩
  | push t h =>
    obtain ⟨a, hout, hready⟩ := exec_push_out_average hexec
    exact ⟨.average a, hout, (by decide : 0#2 ≠ 3#2), rfl, congrArg some hready⟩
  | encode payloadLen payload dest =>
    rcases (execEncode_next_iff _ _ _ _ _).1 hexec with ⟨henc, -, rfl⟩ | ⟨henc, rfl⟩
    · refine ⟨_, returning_out _ _, ?_⟩
      rw [encodeResult_eq]
      split
      · next hle => simp [status, frameLen, henc, hle]
      · next hgt => simp [status, errorStatus, frameLen, henc, Nat.lt_of_not_le hgt]
    · exact ⟨_, returning_out _ _, by simp [status, errorStatus, frameLen, henc]⟩
  | reserved =>
    obtain rfl := (execReserved_next_iff _ _).1 hexec
    exact ⟨.err .illegalCmd, rfl, by decide, rfl⟩

/-- Settles O42: a step either clears the port or performs an operation, which overwrites it unread. -/
theorem resultsAreNotLatched : Obligations.ResultsAreNotLatched := by
  intro s o
  change step (s.withOut o) = step s
  match hh : s.host with
  | [] =>
    rw [step_idle hh, step_idle (s := s.withOut o) hh]
    rfl
  | .reset :: rest =>
    rw [step_reset hh, step_reset (s := s.withOut o) hh]
    rfl
  | .command c :: rest =>
    rw [step_command hh, step_command (s := s.withOut o) hh]
    exact exec_withOut (decode c) (s.withHost rest) o

/-! ### The running sum and the serial emitter -/

/-- The 8-bit running sum is the sum modulo 256, from any start. -/
theorem foldl_add_toNat (bs : List Byte) (acc : Byte) :
    (bs.foldl (fun acc b => acc + b) acc).toNat = (acc.toNat + byteSum bs) % 256 := by
  induction bs generalizing acc with
  | nil => simpa using (Nat.mod_eq_of_lt acc.isLt).symm
  | cons b rest ih =>
    rw [List.foldl_cons, ih, BitVec.toNat_add, byteSum_cons]
    omega

/-- The running form of the checksum (41_frame_encoder.md section 2). -/
theorem checksum_eq_sub_foldl (bs : List Byte) : checksum bs = 255#8 - bs.foldl (fun acc b => acc + b) 0#8 := by
  apply BitVec.eq_of_toNat_eq
  rw [checksum_toNat, BitVec.toNat_sub, foldl_add_toNat]
  simp only [BitVec.toNat_ofNat]
  omega

/-- Subtracting from 255 is complementing. -/
theorem sub_eq_not (b : Byte) : 255#8 - b = ~~~ b := by
  apply BitVec.eq_of_toNat_eq
  have := b.isLt
  rw [BitVec.toNat_sub, BitVec.toNat_not]
  simp only [BitVec.toNat_ofNat]
  omega

section
variable (opts : Byte) (payload : List Byte) (dest : Dest)

/-- The sum of a frame's content, split by its fields. -/
theorem byteSum_frameContent :
    byteSum (frameContent opts payload dest) = 1 + opts.toNat + byteSum dest.toList + byteSum payload := by
  simp only [frameContent, byteSum_append, byteSum_cons, byteSum_nil]
  have htype : frameType.toNat = 0 := rfl
  have hid : frameId.toNat = 1 := rfl
  omega

/-- Bytes 5 to 12 of the emission are the destination. -/
theorem serialByte_dest {j : Nat} (hj : j < 8) (acc : Byte) :
    serialByte opts payload dest (5 + j) acc = (dest[j], acc + dest[j]) := by
  have hget : dest.toList.getD (5 + j - 5) 0 = dest[j] := by simp [hj]
  simp (disch := omega) only [serialByte, hget, if_neg, if_pos]

/-- From byte 14 on the emission sends the payload. -/
theorem serialByte_payload {j : Nat} (hj : j < payload.length) (acc : Byte) :
    serialByte opts payload dest (14 + j) acc = (payload[j], acc + payload[j]) := by
  have hget : payload.getD (14 + j - 14) 0 = payload[j] := by simp [hj]
  simp (disch := omega) only [serialByte, hget, if_neg, if_pos]

/-- The byte after the payload is 255 less the register. -/
theorem serialByte_last (acc : Byte) :
    serialByte opts payload dest (14 + payload.length) acc = (255#8 - acc, acc) := by
  simp (disch := omega) only [serialByte, if_neg]

/-- At an index of the content the emitter sends the content's byte and adds it to the register. -/
theorem serialByte_content {i : Nat} {b : Byte} (acc : Byte) (h : (frameContent opts payload dest)[i]? = some b) :
    serialByte opts payload dest (3 + i) acc = (b, acc + b) := by
  have hi : i < payload.length + 11 := by
    simpa using (List.getElem?_eq_some_iff.1 h).1
  obtain rfl | rfl | ⟨hlow, hhigh⟩ | rfl | hlow : i = 0 ∨ i = 1 ∨ (2 ≤ i ∧ i < 10) ∨ i = 10 ∨ 11 ≤ i := by omega
  · obtain rfl : frameType = b := Option.some.inj h
    rfl
  · obtain rfl : frameId = b := Option.some.inj h
    rfl
  · obtain ⟨j, rfl⟩ := Nat.exists_eq_add_of_le hlow
    have hj : j < 8 := by omega
    rw [frameContent_getElem?_dest _ _ _ hj, Option.some.injEq] at h
    rw [← h, ← serialByte_dest opts payload dest hj, ← Nat.add_assoc]
  · rw [frameContent_getElem?_options, Option.some.injEq] at h
    rw [← h]
    rfl
  · obtain ⟨j, rfl⟩ := Nat.exists_eq_add_of_le hlow
    have hj : j < payload.length := by omega
    rw [frameContent_getElem?_payload, List.getElem?_eq_getElem hj, Option.some.injEq] at h
    rw [← h, ← serialByte_payload opts payload dest hj, ← Nat.add_assoc]

/-- From an index of the content on, the emitter sends the rest of the content and then 255 less the running sum, by
induction over that rest. -/
theorem serialFrom_content (rest : List Byte) {i : Nat} (acc : Byte)
    (hrest : (frameContent opts payload dest).drop i = rest) (hi : i ≤ payload.length + 11) :
    serialFrom opts payload dest (rest.length + 1) (3 + i) acc =
      rest ++ [255#8 - rest.foldl (fun acc b => acc + b) acc] := by
  induction rest generalizing i acc with
  | nil =>
    obtain rfl : i = payload.length + 11 := by
      have := List.drop_eq_nil_iff.1 hrest
      rw [frameContent_length] at this
      omega
    rw [show 3 + (payload.length + 11) = 14 + payload.length by omega]
    simp [serialFrom, serialByte_last]
  | cons b rest ih =>
    have hget : (frameContent opts payload dest)[i]? = some b := by
      rw [← List.head?_drop, hrest, List.head?_cons]
    have hlt : i < payload.length + 11 := by simpa using (List.getElem?_eq_some_iff.1 hget).1
    have htail : (frameContent opts payload dest).drop (i + 1) = rest := by
      rw [← List.tail_drop, hrest, List.tail_cons]
    rw [List.length_cons, serialFrom, serialByte_content _ _ _ _ hget]
    simp only [Nat.add_assoc, ih (acc + b) htail (by omega), List.foldl_cons, List.cons_append]

/-- A payload within the bound is emitted as its frame, whose high length byte is 0. -/
theorem serialEmit_of_le (hle : payload.length ≤ 240) :
    serialEmit opts payload dest = some (frameOf opts payload dest) := by
  have hheader : frameHeader payload.length = [0x7E#8, 0x00#8, BitVec.ofNat 8 (payload.length + 11)] := by
    rw [frameHeader_eq, Nat.div_eq_of_lt (by omega), Nat.mod_eq_of_lt (by omega)]
  have hcontent := serialFrom_content opts payload dest _ 0#8 (List.drop_zero (l := frameContent opts payload dest))
    (Nat.zero_le _)
  rw [← checksum_eq_sub_foldl, frameContent_length] at hcontent
  rw [serialEmit, if_neg (Nat.not_lt.2 hle), frameOf, hheader, List.append_assoc, ← hcontent]
  rfl

/-- A payload above the bound is not emitted at all. -/
theorem serialEmit_of_gt (hgt : 240 < payload.length) : serialEmit opts payload dest = none := if_pos hgt

end

/-- A frame determines the options, the payload and the destination it was made of: they stand one after the other
in its covered bytes. -/
theorem frameOf_injective {opts₁ opts₂ : Byte} {p₁ p₂ : List Byte} {d₁ d₂ : Dest}
    (h : frameOf opts₁ p₁ d₁ = frameOf opts₂ p₂ d₂) : opts₁ = opts₂ ∧ p₁ = p₂ ∧ d₁ = d₂ := by
  have hcontent : frameContent opts₁ p₁ d₁ = frameContent opts₂ p₂ d₂ := by
    rw [← coveredBytes_frameOf, h, coveredBytes_frameOf]
  simp only [frameContent, List.append_assoc] at hcontent
  obtain ⟨hdest, htail⟩ := List.append_inj (List.append_cancel_left hcontent) (by simp)
  obtain ⟨hopts, hpayload⟩ := List.cons.inj htail
  exact ⟨hopts, hpayload, Vector.toList_inj.1 hdest⟩

/-! ### The statements about frames -/

/-- Settles O21: the emitter is the encoder, below the bound and above it. -/
theorem serialEmitterEmitsTheFrame : Obligations.SerialEmitterEmitsTheFrame := by
  intro s payloadLen payload dest henc hlen
  rcases Nat.lt_or_ge 240 payload.length with hgt | hle
  · rw [exec_encode_of_gt dest henc hlen hgt, serialEmit_of_gt _ _ _ hgt]
    rfl
  · rw [exec_encode_of_le dest henc hlen hle, serialEmit_of_le _ _ _ hle]
    rfl

/-- Settles O15: the running sum in 8 bits is the sum modulo 256, and a frame's content sums field by field. -/
theorem checksumFormsAgree : Obligations.ChecksumFormsAgree := by
  refine ⟨fun content => ⟨checksum_eq_sub_foldl content, ?_⟩, fun opts payload dest => ?_⟩
  · rw [checksum_eq_sub_foldl, sub_eq_not]
  · rw [checksum_toNat, byteSum_frameContent]

/-- Settles O17: the frame is an `ENCODE`'s, and its length field `P + 11` is at most 251. -/
theorem frameRanges : Obligations.FrameRanges := by
  intro i s s' f hexec hout
  obtain ⟨payloadLen, payload, dest, rfl⟩ := exec_frame_is_encode hexec hout
  obtain ⟨-, -, hle, rfl⟩ := exec_encode_frame hexec hout
  have hhigh : (payload.length + 11) / 256 = 0 := by omega
  have hlow : (payload.length + 11) % 256 = payload.length + 11 := by omega
  rw [lengthField_frameOf _ _ _ (by omega), frameOf_length]
  refine ⟨by omega, by omega, by omega, by omega, ?_, payloadLen, payload, dest, rfl, hle, ?_⟩
  · rw [frameOf_getElem?_header _ _ _ (by decide), frameHeader_eq, hhigh]
    rfl
  · rw [frameOf_getElem?_header _ _ _ (by decide), frameHeader_eq, hlow]
    rfl

/-- Settles O19: both results are frames of the operands, and `frameOf` is injective. -/
theorem frameDeterminesItsOperands : Obligations.FrameDeterminesItsOperands := by
  intro s₁ s₂ t₁ t₂ l₁ l₂ p₁ p₂ d₁ d₂ f hexec₁ hexec₂ hout₁ hout₂
  obtain ⟨-, hlen₁, -, hf₁⟩ := exec_encode_frame hexec₁ hout₁
  obtain ⟨-, hlen₂, -, hf₂⟩ := exec_encode_frame hexec₂ hout₂
  obtain ⟨hopts, rfl, rfl⟩ := frameOf_injective (hf₁.symm.trans hf₂)
  exact ⟨BitVec.eq_of_toNat_eq (hlen₁.symm.trans hlen₂), rfl, rfl, hopts⟩

/-! ### Every average is of the format -/

/-- The open mean answers a value of the format. -/
theorem unspecifiedMean_isSampleOf (f : SampleFormat) (vs : List Sample) :
    isSampleOf f (unspecifiedMean f vs) = true := by
  unfold unspecifiedMean
  split
  · assumption
  · exact isSampleOf_nan f

/-- Division in a binary format answers a value of it: a special value, or the rounded quotient of two nonzero
numbers. -/
theorem fdiv_isSampleOf (fmt : FloatFormat) (a b : Sample) : isSampleOf (.binary fmt) (fdiv fmt a b) = true := by
  cases a with
  | fin x =>
    cases b with
    | fin y =>
      simp only [fdiv]
      split_ifs with hy hx hx
      · exact isSampleOf_nan _
      · exact isSampleOf_signedInf _ _
      · exact isSampleOf_signedZero _ _
      · exact roundTo_isSampleOf fmt (div_ne_zero hx hy)
    | negZero =>
      simp only [fdiv]
      split_ifs
      · exact isSampleOf_nan _
      · exact isSampleOf_signedInf _ _
    | _ => simp [fdiv]
  | negZero =>
    cases b with
    | fin y =>
      simp only [fdiv]
      split_ifs
      · exact isSampleOf_nan _
      · exact isSampleOf_signedZero _ _
    | _ => simp [fdiv]
  | _ => cases b <;> simp [fdiv]

/-- The mean of a configuration answers a value of its `Sample`. -/
theorem meanOf_isSampleOf (cfg : Config) (vs : List Sample) : isSampleOf cfg.sample (meanOf cfg vs) = true := by
  unfold meanOf
  split
  · next hsample =>
    rw [hsample]
    exact fdiv_isSampleOf _ _ _
  · next hsample =>
    rw [hsample]
    exact isSampleOf_unspecified _
  · exact unspecifiedMean_isSampleOf _ _

/-! ### The exact value of a sum and of a quotient -/

/-- The number a finite sample stands for, both zeros being 0. -/
def finiteValue : Sample → ℚ
  | .negZero => 0
  | .fin q => q
  | .posInf => 0
  | .negInf => 0
  | .nan => 0

@[simp] theorem finiteValue_negZero : finiteValue .negZero = 0 := rfl
@[simp] theorem finiteValue_fin (q : ℚ) : finiteValue (.fin q) = q := rfl

/-- A number rounded to the format, an exact zero being the positive one. -/
def roundExact (fmt : FloatFormat) (q : ℚ) : Sample := if q = 0 then .fin 0 else roundTo fmt q

@[simp] theorem roundExact_zero (fmt : FloatFormat) : roundExact fmt 0 = .fin 0 := if_pos rfl

/-- Values of the format are numbers that rounding leaves as they are. -/
theorem roundExact_finiteValue {fmt : FloatFormat} {x : Sample} (hx : isValueOf fmt x = true) :
    roundExact fmt (finiteValue x) = .fin (finiteValue x) := by
  cases x with
  | fin q =>
    by_cases hq : q = 0
    · simp [hq]
    · have hround : roundTo fmt q = .fin q := by simpa [isValueOf, isFinite, isSampleOf, hq] using hx
      rw [finiteValue_fin, roundExact, if_neg hq, hround]
  | _ => exact roundExact_zero fmt

theorem isFinite_of_isValueOf {fmt : FloatFormat} {x : Sample} (hx : isValueOf fmt x = true) : isFinite x = true :=
  ((Bool.and_eq_true _ _).mp hx).1

/-- A finite sample other than the negative zero is the number it stands for. -/
theorem fin_finiteValue {x : Sample} (hx : isFinite x = true) (hne : x ≠ .negZero) : .fin (finiteValue x) = x := by
  cases x <;> simp_all [isFinite, finiteValue]

/-- Adding a finite sample to a number rounds the exact sum. -/
theorem fadd_fin_left (fmt : FloatFormat) (a : ℚ) {y : Sample} (hy : isFinite y = true) :
    fadd fmt (.fin a) y = roundExact fmt (a + finiteValue y) := by
  cases y with
  | negZero =>
    rw [finiteValue_negZero, add_zero]
    rfl
  | fin b => rfl
  | _ => cases hy

/-- Dividing a number by a positive one rounds the exact quotient. -/
theorem fdiv_fin_pos (fmt : FloatFormat) (a : ℚ) {b : ℚ} (hb : 0 < b) :
    fdiv fmt (.fin a) (.fin b) = roundExact fmt (a / b) := by
  by_cases ha : a = 0
  · simp [fdiv, ha, hb.ne', hb.le, isNegative, signedZero]
  · simp [fdiv, ha, hb.ne', roundExact]

/-- The running sum of one value of the format is the number it stands for. -/
theorem runningSum_singleton {fmt : FloatFormat} {x : Sample} (hx : isValueOf fmt x = true) :
    runningSum fmt [x] = .fin (finiteValue x) := by
  rw [runningSum, List.foldl_cons, List.foldl_nil, fadd_fin_left fmt 0 (isFinite_of_isValueOf hx), zero_add,
    roundExact_finiteValue hx]

/-- The running sum of two values of the format is their exact sum, rounded. -/
theorem runningSum_pair {fmt : FloatFormat} {x y : Sample} (hx : isValueOf fmt x = true)
    (hy : isValueOf fmt y = true) : runningSum fmt [x, y] = roundExact fmt (finiteValue x + finiteValue y) := by
  have hsum : runningSum fmt [x, y] = fadd fmt (runningSum fmt [x]) y := rfl
  rw [hsum, runningSum_singleton hx, fadd_fin_left fmt _ (isFinite_of_isValueOf hy)]

/-! ### Doubling -/

/-- The binary exponent is the one whose powers of two enclose the number. -/
theorem floorLog2_eq_of_bounds {q : ℚ} {k : Int} (hlow : pow2 k ≤ q) (hhigh : q < pow2 (k + 1)) : floorLog2 q = k := by
  obtain ⟨low, high⟩ := floorLog2_spec (lt_of_lt_of_le (pow2_pos k) hlow)
  apply le_antisymm
  · by_contra hlt
    exact absurd (pow2_le_pow2 (show k + 1 ≤ floorLog2 q by omega)) (by linarith)
  · by_contra hlt
    exact absurd (pow2_le_pow2 (show floorLog2 q + 1 ≤ k by omega)) (by linarith)

theorem floorLog2_two_mul {q : ℚ} (hq : 0 < q) : floorLog2 (2 * q) = floorLog2 q + 1 := by
  obtain ⟨low, high⟩ := floorLog2_spec hq
  apply floorLog2_eq_of_bounds
  · rw [pow2_succ]
    linarith
  · rw [pow2_succ]
    linarith

/-- The double of a magnitude has the same last place (of subnormal values) or the next one. -/
theorem lastPlace_two_mul (fmt : FloatFormat) {q : ℚ} (hq : 0 < q) :
    lastPlace fmt (2 * q) = lastPlace fmt q ∨ lastPlace fmt (2 * q) = lastPlace fmt q + 1 := by
  simp only [lastPlace, floorLog2_two_mul hq]
  omega

/-- Doubling a magnitude that rounding leaves as it is gives another: it is a whole number of last places again. -/
theorem roundMagnitude_two_mul {fmt : FloatFormat} {q : ℚ} (hq : 0 < q) (h : roundMagnitude fmt q = q) :
    roundMagnitude fmt (2 * q) = 2 * q := by
  obtain ⟨z, hz⟩ : ∃ z : Int, q = z * pow2 (lastPlace fmt q) := ⟨_, h.symm⟩
  rcases lastPlace_two_mul fmt hq with hlp | hlp
  · refine roundMagnitude_of_whole (z := 2 * z) ?_
    rw [hlp]
    push_cast
    linarith
  · refine roundMagnitude_of_whole (z := z) ?_
    rw [hlp, pow2_succ]
    linarith

/-- A nonzero number that rounding leaves as it is has a magnitude that rounding leaves as it is. -/
theorem roundMagnitude_of_roundTo_self {fmt : FloatFormat} {q : ℚ} (hq : q ≠ 0) (h : roundTo fmt q = .fin q) :
    roundMagnitude fmt |q| = |q| := by
  unfold roundTo at h
  simp only at h
  split_ifs at h with hmax hzero hneg
  · by_cases hneg : q < 0 <;> simp [hneg, signedInf] at h
  · by_cases hneg : q < 0 <;> simp [hneg, signedZero, hq.symm] at h
  · have hneg' : q < 0 := by simpa using hneg
    rw [abs_of_neg hneg']
    rw [abs_of_neg hneg', Sample.fin.injEq] at h
    linarith
  · exact (Sample.fin.inj h).trans (abs_of_nonneg (by simpa using hneg)).symm

/-- A number whose magnitude rounding leaves as it is comes back unless it overflows. -/
theorem roundTo_of_roundMagnitude_self {fmt : FloatFormat} {q : ℚ} (hq : q ≠ 0) (h : roundMagnitude fmt |q| = |q|)
    (hfin : isFinite (roundTo fmt q) = true) : roundTo fmt q = .fin q := by
  obtain ⟨z, hz⟩ : ∃ z : Int, |q| = z * pow2 (lastPlace fmt |q|) := ⟨_, h.symm⟩
  refine roundTo_of_whole hq hz fun hmax => ?_
  have hinf : roundTo fmt q = signedInf (decide (q < 0)) := by
    simp only [roundTo, h]
    exact if_pos hmax
  rw [hinf] at hfin
  by_cases hneg : q < 0 <;> simp [hneg, signedInf, isFinite] at hfin

/-- The double of a value of the format is one too unless it overflows. -/
theorem roundExact_two_mul {fmt : FloatFormat} {q : ℚ} (h : roundExact fmt q = .fin q)
    (hfin : isFinite (roundExact fmt (2 * q)) = true) : roundExact fmt (2 * q) = .fin (2 * q) := by
  by_cases hq : q = 0
  · simp [hq]
  · have hq2 : 2 * q ≠ 0 := mul_ne_zero two_ne_zero hq
    rw [roundExact, if_neg hq] at h
    rw [roundExact, if_neg hq2] at hfin ⊢
    refine roundTo_of_roundMagnitude_self hq2 ?_ hfin
    rw [abs_mul, abs_two]
    exact roundMagnitude_two_mul (abs_pos.2 hq) (roundMagnitude_of_roundTo_self hq h)

/-! ### Rounding a positive number that is not too small -/

/-- Rounding does not pass an integer below. -/
theorem le_roundHalfEven {x : ℚ} {z : Int} (h : z ≤ x) : z ≤ roundHalfEven x := by
  have hfloor : z ≤ x.floor := Rat.le_floor_iff.2 h
  unfold roundHalfEven
  simp only
  split_ifs <;> omega

/-- A magnitude of at least one smallest last place does not round to zero. -/
theorem roundMagnitude_pos {fmt : FloatFormat} {q : ℚ} (hmin : pow2 fmt.minExp ≤ q) : 0 < roundMagnitude fmt q := by
  have hq : 0 < q := lt_of_lt_of_le (pow2_pos _) hmin
  have hprec := fmt.precision_pos
  have hplace : pow2 (lastPlace fmt q) ≤ q := by
    rcases max_choice fmt.minExp (floorLog2 q - ((fmt.precision : Int) - 1)) with hmax | hmax
    · rwa [lastPlace, hmax]
    · rw [lastPlace, hmax]
      exact (pow2_le_pow2 (by omega)).trans (floorLog2_spec hq).1
  have hone : 1 ≤ roundHalfEven (q / pow2 (lastPlace fmt q)) := by
    apply le_roundHalfEven
    rw [Int.cast_one, one_le_div (pow2_pos _)]
    exact hplace
  have hcast : (0 : ℚ) < roundHalfEven (q / pow2 (lastPlace fmt q)) := by exact_mod_cast hone
  exact mul_pos hcast (pow2_pos _)

/-- Such a number rounds to a positive number or overflows. -/
theorem roundTo_pos {fmt : FloatFormat} {q : ℚ} (hmin : pow2 fmt.minExp ≤ q) :
    roundTo fmt q = .posInf ∨ ∃ m, 0 < m ∧ roundTo fmt q = .fin m := by
  have hq : 0 < q := lt_of_lt_of_le (pow2_pos _) hmin
  have hpos := roundMagnitude_pos hmin
  have hneg : ¬ q < 0 := not_lt.2 hq.le
  simp only [roundTo, abs_of_pos hq, hneg, decide_false, signedInf]
  by_cases hmax : pow2 fmt.maxExp ≤ roundMagnitude fmt q
  · exact .inl (if_pos hmax)
  · exact .inr ⟨_, hpos, by simp [hmax, hpos.ne']⟩

/-- The positive zero divided by a natural number of at least one is the positive zero, even by one that overflows. -/
theorem fdiv_zero_ofNatural {fmt : FloatFormat} (hfmt : fmt.minExp ≤ 0) {n : Nat} (hn : 1 ≤ n) :
    fdiv fmt (.fin 0) (ofNatural fmt n) = .fin 0 := by
  have hmin : pow2 fmt.minExp ≤ (n : ℚ) := by
    have hone : (1 : ℚ) ≤ n := by exact_mod_cast hn
    exact (pow2_le_pow2 hfmt).trans hone
  rw [ofNatural, if_neg (by omega)]
  rcases roundTo_pos hmin with hinf | ⟨m, hm, hfin⟩
  · rw [hinf]
    rfl
  · rw [hfin, fdiv_fin_pos fmt 0 hm, zero_div, roundExact_zero]

/-! ### The reference mean -/

/-- The running sum of negative zeros is the positive zero it starts from. -/
theorem runningSum_negZeros (fmt : FloatFormat) (n : Nat) :
    runningSum fmt (List.replicate n .negZero) = .fin 0 := by
  induction n with
  | zero => rfl
  | succ n ih =>
    rw [runningSum, List.replicate_succ, List.foldl_cons, fadd_fin_left fmt 0 rfl, finiteValue_negZero, add_zero,
      roundExact_zero]
    exact ih

/-- A power of two in the range of the format is one of its values. -/
theorem roundTo_pow2 {fmt : FloatFormat} {k : Int} (hmin : fmt.minExp ≤ k) (hmax : k < fmt.maxExp) :
    roundTo fmt (pow2 k) = .fin (pow2 k) := by
  have hprec := fmt.precision_pos
  have habs : |pow2 k| = pow2 k := abs_of_pos (pow2_pos k)
  have hplace : lastPlace fmt (pow2 k) ≤ k := by
    rw [lastPlace, floorLog2_pow2]
    omega
  obtain ⟨d, hd⟩ := Int.le.dest hplace
  refine roundTo_of_whole (z := 2 ^ d) (pow2_pos k).ne' ?_ ?_
  · rw [habs, ← pow2_natCast, ← pow2_add, Int.add_comm, hd]
  · rw [habs, not_le]
    have hdouble := pow2_le_pow2 (show k + 1 ≤ fmt.maxExp by omega)
    linarith [pow2_succ k, pow2_pos k]

theorem ofNatural_binary32_one : ofNatural binary32 1 = .fin 1 := by
  have hone : pow2 0 = 1 := by rw [pow2_eq_zpow, zpow_zero]
  have hround := roundTo_pow2 (fmt := binary32) (k := 0) (by decide) (by decide)
  rw [hone] at hround
  exact hround

theorem ofNatural_binary32_two : ofNatural binary32 2 = .fin 2 := by
  have htwo : pow2 1 = 2 := by rw [pow2_eq_zpow, zpow_one]
  have hround := roundTo_pow2 (fmt := binary32) (k := 1) (by decide) (by decide)
  rw [htwo] at hround
  exact hround

/-- The reference mean of one value of binary32 is the number it stands for. -/
theorem referenceMean_singleton {x : Sample} (hx : isValueOf binary32 x = true) :
    referenceMean binary32 [x] = .fin (finiteValue x) := by
  rw [referenceMean, runningSum_singleton hx, List.length_singleton, ofNatural_binary32_one,
    fdiv_fin_pos _ _ one_pos, div_one, roundExact_finiteValue hx]

/-- The reference mean of one value of binary32 twice is the number it stands for, unless the sum overflows. -/
theorem referenceMean_pair_self {x : Sample} (hx : isValueOf binary32 x = true)
    (hfin : isFinite (roundExact binary32 (2 * finiteValue x)) = true) :
    referenceMean binary32 [x, x] = .fin (finiteValue x) := by
  have hround := roundExact_finiteValue hx
  have hlen : [x, x].length = 2 := rfl
  rw [referenceMean, runningSum_pair hx hx, ← two_mul, roundExact_two_mul hround hfin, hlen,
    ofNatural_binary32_two, fdiv_fin_pos _ _ two_pos, mul_div_cancel_left₀ _ two_ne_zero, hround]

/-- A configuration that selects the reference mean averages by it, in its own format. -/
theorem meanOf_reference {cfg : Config} {fmt : FloatFormat} {vs : List Sample} (hmean : cfg.mean = .reference)
    (hsample : cfg.sample = .binary fmt) : meanOf cfg vs = referenceMean fmt vs := by
  simp only [meanOf, hmean, hsample]

/-- A valid reading's fields are values of the binary format. -/
theorem isValueOf_of_readingValid {fmt : FloatFormat} {t h : Sample}
    (hv : readingValid (.binary fmt) (pushReading t h) = true) : isValueOf fmt t = true ∧ isValueOf fmt h = true := by
  simp only [readingValid, readingFinite, readingOfFormat, pushReading, Bool.and_eq_true] at hv
  obtain ⟨⟨hft, hfh⟩, hst, hsh⟩ := hv
  simp [isValueOf, hft, hfh, hst, hsh]

/-- With one slot a completed push returns the average of the reading pushed alone. -/
theorem exec_push_out_of_single {s s' : State} {t h : Sample} (hn : s.cfg.n = 1)
    (hexec : exec (.push t h) s = .next s') :
    s'.out = some (.average (some (averageOf s.cfg [pushReading t h]))) := by
  obtain ⟨-, hlt, -, -⟩ := exec_push_next hexec
  obtain ⟨-, hcount⟩ := exec_push_counters hexec
  obtain ⟨hcfg, -⟩ := exec_keeps_cfg_host hexec
  obtain ⟨r, hout, hr⟩ := exec_push_out hexec
  have hfull : s'.filledCount = s'.cfg.n := by
    rw [hcount, hcfg, nextCount]
    omega
  have hread : windowReadings s' = .ok [pushReading t h] := by
    refine (windowReadings_ok_iff _ _).2 ⟨by rw [hcfg, hn]; rfl, fun i hi => ?_⟩
    obtain rfl : i = s.nextSlot := by
      have hi : i < 1 := hi
      omega
    simpa using exec_push_reads_back hexec
  have hresult := (pushResult_ok_iff s' _).2 (.inl ⟨(ready_iff s').2 hfull, _, hread, rfl⟩)
  rw [hout, Except.ok.inj (hr.symm.trans hresult), hcfg]

/-! ### The statements about the mean -/

/-- Settles O47: for one value the division by 1 loses nothing; for two, the double and its half are values of the
format; a negative zero stands for the number 0. -/
theorem referenceMeanOfEqualValues : Obligations.ReferenceMeanOfEqualValues := by
  intro x hx
  have hfinite := isFinite_of_isValueOf hx
  refine ⟨fun hne => ?one, fun hne hsum => ?two, ?zero⟩
  case one => rw [referenceMean_singleton hx, fin_finiteValue hfinite hne]
  case two =>
    have hx' := fin_finiteValue hfinite hne
    have hdouble : fadd binary32 x x = roundExact binary32 (2 * finiteValue x) := by
      conv_lhs => rw [← hx', fadd_fin_left _ _ (by rw [hx']; exact hfinite), finiteValue_fin, ← two_mul]
    rw [referenceMean_pair_self hx (hdouble ▸ hsum), hx']
  case zero =>
    rintro rfl
    exact ⟨referenceMean_singleton hx, referenceMean_pair_self hx (by simp [isFinite])⟩

/-- Settles O48: the exact sum does not depend on the order. -/
theorem referenceMeanOfTwoIgnoresOrder : Obligations.ReferenceMeanOfTwoIgnoresOrder := by
  intro x y hx hy
  rw [referenceMean, referenceMean, runningSum_pair hx hy, runningSum_pair hy hx, add_comm]
  rfl

/-- Settles O49: the sum is the positive zero, and a positive divisor keeps it. -/
theorem referenceMeanOfNegativeZeros : Obligations.ReferenceMeanOfNegativeZeros := by
  intro n hn
  rw [referenceMean, runningSum_negZeros, List.length_replicate]
  exact fdiv_zero_ofNatural (by decide) hn

/-- Settles O51: both components are means, and a mean is of the format. -/
theorem everyAverageIsOfTheFormat : Obligations.EveryAverageIsOfTheFormat := by
  intro s s' t h a hexec hout
  obtain ⟨rs, -, rfl⟩ := exec_push_average hexec hout
  exact ⟨meanOf_isSampleOf _ _, meanOf_isSampleOf _ _⟩

/-- Settles O52: the one slot is the window, and the reference mean of one value is that value. -/
theorem singleSlotReferenceReturnsItsOperand : Obligations.SingleSlotReferenceReturnsItsOperand := by
  intro s t h hw hn hsample hmean hv ht hh
  obtain ⟨s', hexec⟩ := exec_push_completes (t := t) (hum := h) hw (hsample ▸ hv)
  obtain ⟨hvt, hvh⟩ := isValueOf_of_readingValid hv
  have hmeanOf {x : Sample} (hx : isValueOf binary32 x = true) (hne : x ≠ .negZero) : meanOf s.cfg [x] = x := by
    rw [meanOf_reference hmean hsample, referenceMean_singleton hx, fin_finiteValue (isFinite_of_isValueOf hx) hne]
  have havg : averageOf s.cfg [pushReading t h] = { t := t, h := h } :=
    congrArg₂ Average.mk (hmeanOf hvt ht) (hmeanOf hvh hh)
  exact ⟨s', hexec, havg ▸ exec_push_out_of_single hn hexec⟩

/-! ### The statements about commands, refusals and reset -/

/-- A command code is one of four. -/
theorem cmd_cases (w : BitVec 2) : w = 0b00#2 ∨ w = 0b01#2 ∨ w = 0b10#2 ∨ w = 0b11#2 := by
  decide +revert

/-- What a command decodes to carries the command's code. -/
theorem cmdCode_decode (c : Command) : cmdCode (decode c) = c.cmd := by
  rcases cmd_cases c.cmd with hc | hc | hc | hc <;> simp [decode, cmdCode, hc]

/-- Decoding inverts encoding. -/
@[simp] theorem decode_encode (i : Instr) : decode (encode i) = i := by
  cases i <;> rfl

/-- The command presented for an operation carries its code. -/
theorem encode_cmd (i : Instr) : (encode i).cmd = cmdCode i := by
  cases i <;> rfl

/-- Settles O1, code by code. -/
theorem decodeReadsTheCommandCode : Obligations.DecodeReadsTheCommandCode := by
  intro c
  refine ⟨fun hc => ?nop, fun hc => ?push, fun hc => ?encode, fun hc => ?reserved⟩
  all_goals simp [decode, hc]

/-- Settles O2, by running the decoder on the four words. -/
theorem tableWordsDecodeToTheirRows : Obligations.TableWordsDecodeToTheirRows :=
  ⟨rfl, rfl, rfl, rfl⟩

/-- Settles O3: decoding inverts encoding and keeps the code. -/
theorem decodeAndEncodeAgree : Obligations.DecodeAndEncodeAgree :=
  ⟨decode_encode, fun c => ⟨(encode_cmd _).trans (cmdCode_decode c), decode_encode _⟩⟩

/-- Settles O4, by the kind of the oldest event. -/
theorem stepServesTheOldestEvent : Obligations.StepServesTheOldestEvent := fun _ =>
  ⟨step_idle, fun _ => step_reset, fun _ _ => step_command⟩

/-- Settles O5: the word's command is the oldest event, and taking it off gives the state back. -/
theorem presentedWordRunsNext : Obligations.PresentedWordRunsNext := by
  intro s nbits w i hword
  obtain ⟨c, hc, rfl⟩ := Option.map_eq_some_iff.1 hword
  have hpresent : s.withFetchWord nbits w = presentFirst s c := by
    rw [State.withFetchWord, presentWord, hc]
  rw [hpresent]
  exact step_command rfl

/-- Settles O6, by the meaning of `NOP`. -/
theorem nopCompletesAndChangesNothing : Obligations.NopCompletesAndChangesNothing := fun s =>
  (execNop_next_iff s _).2 rfl

/-- Settles O7, by the meaning of the reserved command. -/
theorem reservedAnswersIllegalCommand : Obligations.ReservedAnswersIllegalCommand := fun s =>
  (execReserved_next_iff s _).2 rfl

/-- Settles O8: without the encoder no operand is looked at. -/
theorem encodeWithoutEncoderAnswersIllegalCommand : Obligations.EncodeWithoutEncoderAnswersIllegalCommand :=
  fun _ _ _ _ henc => (execEncode_next_iff _ _ _ _ _).2 (.inr ⟨henc, rfl⟩)

/-- Settles O11: the length is checked once the encoder is there. -/
theorem encodeRefusesAWrongLength : Obligations.EncodeRefusesAWrongLength := by
  intro s payloadLen payload dest henc hne
  have hagree : ¬ payloadAgrees payloadLen payload = true := by simpa [payloadAgrees] using hne
  rw [exec_encode, execEncode, if_pos henc, if_neg hagree]

/-- Settles O24: a reading with a field that is not finite is not valid, and is refused by that name. -/
theorem pushRefusesANonFiniteReading : Obligations.PushRefusesANonFiniteReading := by
  intro s t h hnot
  have hfinite : readingFinite (pushReading t h) = false := Bool.and_eq_false_iff.2 hnot
  rw [exec_push, execPush_of_not_valid (by simp [readingValid, hfinite]), hfinite]
  rfl

/-- Settles O50: finite fields outside the format make a reading that is not valid, and is refused by that name. -/
theorem pushRefusesAValueOutsideTheFormat : Obligations.PushRefusesAValueOutsideTheFormat := by
  intro s t h hft hfh hnot
  have hfinite : readingFinite (pushReading t h) = true := by simp [readingFinite, pushReading, hft, hfh]
  have hformat : readingOfFormat s.cfg.sample (pushReading t h) = false := Bool.and_eq_false_iff.2 hnot
  rw [exec_push, execPush_of_not_valid (by simp [readingValid, hformat]), hfinite]
  rfl

/-- Settles O25: the write of a valid reading is the first access, and out of range. -/
theorem pushOutsideTheWindowFaults : Obligations.PushOutsideTheWindowFaults := fun _ _ _ => execPush_of_out_of_range

/-- Settles O33: no slot is listed after the reset event, so none below `N` has a value. -/
theorem resetEventClearsOnlyTheWindow : Obligations.ResetEventClearsOnlyTheWindow := by
  intro s rest hhost
  refine ⟨_, step_reset hhost, rfl, rfl, rfl, rfl, rfl, fun i hi => ?_⟩
  simp [slotRead, hi]

/-- Settles O34: the state after reset is what the reset event leaves. -/
theorem resetMeetsTheInvariant : Obligations.ResetMeetsTheInvariant := fun cfg es =>
  windowOk_resetEvent ((State.resetWith cfg).withHost es)

end Sys2Proof.Machine
end
